-- ==== Sys2Proof/Word.lean ====
section
/-! DEFINITION. The machine's words: everything the spec calls a 32-bit unsigned integer, an 8-bit byte or a
4-bit register index (00_scope.md R1 and section 5; 10_state.md R10). The `+32`, `-32`, `*32` of the spec's
notation are `+`, `-`, `*` of `BitVec 32`, its `div` on unsigned integers is `/` of `BitVec 32`, and its
unsigned comparisons are `<` and `=` of `BitVec 32`. -/

namespace Sys2Proof

/-- A register value, a memory word or an instruction word: an unsigned integer below 2^32 (00_scope.md R1). -/
abbrev Word := BitVec 32

/-- One byte of memory or of output: the address unit (20_memory.md R40). -/
abbrev Byte := BitVec 8

/-- A register index: a 4-bit number, so every one names an existing register (10_state.md R10). -/
abbrev RegIdx := BitVec 4

/-- Register 15, which doubles as the program counter (10_state.md R13). -/
abbrev RegIdx.pc : RegIdx := 15#4

end Sys2Proof
end

