-- ==== Sys2Proof/Config.lean ====
section
/-! DEFINITION. The named implementation parameters of 00_scope.md R2 to R7 as plain data, with the spec's default
of each, and the two shapes of data their reset values need (the flags and the memory). Nothing here is a free
value: every parameter is a field, and a statement for every `Config` is a statement for every setting. -/

namespace Sys2Proof

/-- The three flags E, G, L: "three independent booleans" (10_state.md R18). -/
structure Flags where
  /-- E: the last executed `cmp` found its operands equal. -/
  equal : Bool
  /-- G: the last executed `cmp` found its first operand greater. -/
  greater : Bool
  /-- L: the last executed `cmp` found its first operand less. -/
  less : Bool
deriving DecidableEq, Repr

/-- The byte array MEM (20_memory.md R40), sparse: the listed (address, byte) pairs, addresses strictly rising, no
entry equal to `Memory.unlisted` (`Memory.wf` of WellFormed.lean says so). -/
abbrev Memory := List Host.Cell

/-- What an address that is not listed reads as: the reset content of memory, 0 (10_state.md R30). -/
def Memory.unlisted : Byte := 0#8

/-- OPMAP: the 6-bit number of each of the 11 mnemonics (00_scope.md R3, 92_eei_decisions.md D1). -/
structure OpMap where
  ldr : BitVec 6
  str : BitVec 6
  add : BitVec 6
  sub : BitVec 6
  mul : BitVec 6
  div : BitVec 6
  mov : BitVec 6
  cmp : BitVec 6
  jmp : BitVec 6
  sav : BitVec 6
  prn : BitVec 6
deriving DecidableEq, Repr

/-- The default OPMAP: the order of the opcode table, counted from 0 (00_scope.md R3; 30_encoding.md R76). -/
def OpMap.default : OpMap :=
  { ldr := 0, str := 1, add := 2, sub := 3, mul := 4, div := 5, mov := 6, cmp := 7, jmp := 8, sav := 9, prn := 10 }

/-- FETCH_MISALIGNED: what a fetch does when the program counter is below CODE_LEN and not a multiple of 4
(00_scope.md R4; 20_memory.md R48). -/
inductive FetchMisaligned where
  /-- Raise `FetchMisaligned`: the default. -/
  | fault
  /-- Read the four bytes at that byte offset. -/
  | byteFetch
deriving DecidableEq, Repr

/-- ILLEGAL_OPCODE: what a word whose opcode field OPMAP assigns to no mnemonic does (00_scope.md R5;
60_exceptions.md R236). -/
inductive IllegalOpcode where
  /-- Raise `IllegalOpcode` at execute, only when the condition gate passes: the default. -/
  | faultIfExecuted
  /-- Raise `IllegalOpcode` at decode, before the advance, whatever the condition. -/
  | faultAlways
  /-- No effect beyond the advance of the program counter. -/
  | nop
deriving DecidableEq, Repr

/-- The implementation parameters. No step and no host operation changes them. -/
structure Config where
  /-- MEM_SIZE, the memory capacity in bytes (00_scope.md R2). -/
  memSize : Nat
  /-- OPMAP (00_scope.md R3). -/
  opmap : OpMap
  /-- FETCH_MISALIGNED (00_scope.md R4). -/
  fetchMisaligned : FetchMisaligned
  /-- ILLEGAL_OPCODE (00_scope.md R5). -/
  illegalOpcode : IllegalOpcode
  /-- LINE_TERMINATOR, the bytes the host appends to the shown output after a normal halt (00_scope.md R6). -/
  lineTerminator : List Byte
  /-- RESET_REGS: the reset values of x[0] to x[14]; x[15] is not open (00_scope.md R7; 10_state.md R32). -/
  resetRegs : Vector Word 15
  /-- RESET_FLAGS (00_scope.md R7; 10_state.md R32). -/
  resetFlags : Flags
  /-- RESET_MEM (00_scope.md R7; 10_state.md R32). -/
  resetMem : Memory
deriving DecidableEq, Repr

/-- Every parameter at the spec's default: MEM_SIZE = 2048, OPMAP in table order, `fault`, `fault_if_executed`, the
one byte 0x0A, and reset values zero and false (00_scope.md R2 to R7; 10_state.md R30). -/
def Config.default : Config :=
  { memSize := 2048
    opmap := OpMap.default
    fetchMisaligned := .fault
    illegalOpcode := .faultIfExecuted
    lineTerminator := [0x0A#8]
    resetRegs := Vector.replicate 15 0#32
    resetFlags := { equal := false, greater := false, less := false }
    resetMem := [] }

end Sys2Proof
end

