-- ==== Sys2Proof/Syntax.lean ====
section
/-! DEFINITION. The whole instruction set: the eleven mnemonics, the eight condition codes, the four formats and
the instructions, one constructor per row of the opcode table (30_encoding.md R76 to R80). Also the raw form
that the codec's `Encode` takes, whose operands need not fit their fields (30_encoding.md R85, R87). -/

namespace Sys2Proof

/-- The eleven operations, in the order of the opcode table (30_encoding.md R76). -/
inductive Mnemonic where
  | ldr | str | add | sub | mul | div | mov | cmp | jmp | sav | prn
deriving DecidableEq, Repr

/-- All eleven, in the order of the opcode table. -/
def Mnemonic.all : List Mnemonic :=
  [.ldr, .str, .add, .sub, .mul, .div, .mov, .cmp, .jmp, .sav, .prn]

/-- The eight values of the condition field, all legal (30_encoding.md R77; 92_eei_decisions.md D6). -/
inductive Cond where
  /-- 0, no suffix. -/
  | always
  /-- 1, suffix `l`. -/
  | less
  /-- 2, suffix `g`. -/
  | greater
  /-- 3, suffix `ne`. -/
  | notEqual
  /-- 4, suffix `e`. -/
  | equal
  /-- 5, suffix `le`. -/
  | lessEqual
  /-- 6, suffix `ge`. -/
  | greaterEqual
  /-- 7, no spelling in the assembler. -/
  | anyFlag
deriving DecidableEq, Repr

/-- The four formats (30_encoding.md R78). -/
inductive Format where
  /-- Three registers. -/
  | r3
  /-- Two registers. -/
  | r2
  /-- One register. -/
  | r1
  /-- A register and the 19-bit literal. -/
  | ri
deriving DecidableEq, Repr

/-- The format of each operation (30_encoding.md R78). -/
def Mnemonic.format : Mnemonic → Format
  | .add | .sub | .mul | .div => .r3
  | .ldr | .str | .cmp => .r2
  | .jmp | .sav | .prn => .r1
  | .mov => .ri

/-- The instructions: one constructor per row of the opcode table, its first argument the condition that gates it,
then its operands in the order of the assembler. The bits a format ignores (30_encoding.md R79) are no part of an
instruction. -/
inductive Instr where
  /-- Load word (41_load_store.md R150). -/
  | ldr (c : Cond) (dst addrReg : RegIdx)
  /-- Store word: value first, address second (41_load_store.md R151). -/
  | str (c : Cond) (valReg addrReg : RegIdx)
  /-- Add (42_arithmetic.md R161). -/
  | add (c : Cond) (dst a b : RegIdx)
  /-- Subtract (42_arithmetic.md R162). -/
  | sub (c : Cond) (dst a b : RegIdx)
  /-- Multiply (42_arithmetic.md R163). -/
  | mul (c : Cond) (dst a b : RegIdx)
  /-- Unsigned divide (42_arithmetic.md R164). -/
  | div (c : Cond) (dst a b : RegIdx)
  /-- Move literal (43_move.md R180). -/
  | mov (c : Cond) (dst : RegIdx) (imm19 : BitVec 19)
  /-- Compare (44_compare.md R190). -/
  | cmp (c : Cond) (a b : RegIdx)
  /-- Jump to the address in a register (45_control_transfer.md R200). -/
  | jmp (c : Cond) (target : RegIdx)
  /-- Save the program counter (45_control_transfer.md R201). -/
  | sav (c : Cond) (dst : RegIdx)
  /-- Output the four bytes of a register (46_output.md R215). -/
  | prn (c : Cond) (src : RegIdx)
deriving DecidableEq, Repr

/-- The condition that gates an instruction: every instruction has one (40_execution_cycle.md R127). -/
def Instr.cond : Instr → Cond
  | .ldr c _ _ => c
  | .str c _ _ => c
  | .add c _ _ _ => c
  | .sub c _ _ _ => c
  | .mul c _ _ _ => c
  | .div c _ _ _ => c
  | .mov c _ _ => c
  | .cmp c _ _ => c
  | .jmp c _ => c
  | .sav c _ => c
  | .prn c _ => c

/-- The operation of an instruction. -/
def Instr.mnemonic : Instr → Mnemonic
  | .ldr _ _ _ => .ldr
  | .str _ _ _ => .str
  | .add _ _ _ _ => .add
  | .sub _ _ _ _ => .sub
  | .mul _ _ _ _ => .mul
  | .div _ _ _ _ => .div
  | .mov _ _ _ => .mov
  | .cmp _ _ _ => .cmp
  | .jmp _ _ => .jmp
  | .sav _ _ => .sav
  | .prn _ _ => .prn

/-- An operand as `Encode` takes it (30_encoding.md R85): any number, whether or not it fits its field. -/
inductive RawOperand where
  /-- A register operand with index `i` in slot 0, 1 or 2. -/
  | reg (slot : Fin 3) (i : Nat)
  /-- A literal, which enters at bit 0, unshifted. -/
  | lit (v : Nat)
deriving DecidableEq, Repr

/-- The arguments of `Encode(opcode, cond, operands)` (30_encoding.md R85). -/
structure RawInstr where
  opcode : Nat
  cond : Nat
  operands : List RawOperand
deriving DecidableEq, Repr

end Sys2Proof
end

