-- ==== Sys2Proof/WellFormed.lean ====
section
/-! DEFINITION. The checks on data that its type does not already make: an OPMAP is injective (00_scope.md R3), a raw
instruction is legal (30_encoding.md R86), a memory is in its one canonical form and inside the array (20_memory.md
R40), the parameters meet their constraints (00_scope.md R2). An `Instr` needs no check: every register index, condition
and literal it can hold fits its field. -/

namespace Sys2Proof

/-- The number OPMAP gives a mnemonic (00_scope.md R3). -/
def OpMap.number (m : OpMap) : Mnemonic → BitVec 6
  | .ldr => m.ldr
  | .str => m.str
  | .add => m.add
  | .sub => m.sub
  | .mul => m.mul
  | .div => m.div
  | .mov => m.mov
  | .cmp => m.cmp
  | .jmp => m.jmp
  | .sav => m.sav
  | .prn => m.prn

/-- "The numbers must be pairwise distinct" (00_scope.md R3); that they lie in 0 .. 63 is their type. -/
abbrev OpMap.Distinct (m : OpMap) : Prop :=
  (Mnemonic.all.map m.number).Nodup

/-- The operands of a raw instruction are those of the format, each fitting its field (30_encoding.md R78, R86). -/
def RawOperand.fit : Format → List RawOperand → Bool
  | .r3, [.reg 0 d, .reg 1 a, .reg 2 b] => decide (d < 16) && decide (a < 16) && decide (b < 16)
  | .r2, [.reg 0 a, .reg 1 b] => decide (a < 16) && decide (b < 16)
  | .r1, [.reg 0 a] => decide (a < 16)
  | .ri, [.reg 0 d, .lit v] => decide (d < 16) && decide (v < 2 ^ 19)
  | _, _ => false

/-- A legal operand combination: one of the 11 opcodes, a condition in 0 to 7, each register index in 0 to 15, and
for `mov` a literal below 2^19 (30_encoding.md R86). -/
def RawInstr.legal (m : OpMap) (q : RawInstr) : Bool :=
  decide (q.cond < 8) &&
    Mnemonic.all.any fun k => decide (q.opcode = (m.number k).toNat) && RawOperand.fit k.format q.operands

/-- The listed addresses rise strictly from `lo` on, and no listed byte is `Memory.unlisted`. -/
def Memory.wfFrom : Nat → Memory → Bool
  | _, [] => true
  | lo, (a, b) :: rest => decide (lo ≤ a) && decide (b ≠ Memory.unlisted) && Memory.wfFrom (a + 1) rest

/-- The one canonical form of a memory: addresses strictly rising, no entry equal to what an unlisted address
reads as. -/
def Memory.wf (m : Memory) : Bool :=
  Memory.wfFrom 0 m

/-- Every listed address exists: it lies in 0 .. MEM_SIZE-1 (20_memory.md R40). -/
def Memory.within (size : Nat) (m : Memory) : Bool :=
  m.all fun cell => decide (cell.1 < size)

/-- The parameters meet the constraints of 00_scope.md R2 and R3, and RESET_MEM is a memory of that size. -/
abbrev Config.Valid (c : Config) : Prop :=
  4 ≤ c.memSize ∧ c.memSize < 2 ^ 32 ∧ c.opmap.Distinct ∧ c.resetMem.wf = true ∧
    Memory.within c.memSize c.resetMem = true

end Sys2Proof
end

