-- ==== Sys2Proof/Decode.lean ====
section
/-! DEFINITION. The instruction word codec (30_encoding.md): the byte order of a word (20_memory.md R43), the decoder's
extraction functions (R72 to R75), the opcode map (R76), the decoder, total on any bytes, and after it the encoder
(R85): XOR composition on numbers that need not fit their fields. -/

namespace Sys2Proof

/-! ### Byte order -/

/-- Byte `k` of a word, byte 0 the least significant: `v[8k+7 : 8k]` (20_memory.md R45). -/
def Word.byte (v : Word) (k : Nat) : Byte :=
  v.extractLsb' (8 * k) 8

/-- The four bytes of a word, least significant first (20_memory.md R43). -/
def Word.bytes (v : Word) : List Byte :=
  [Word.byte v 0, Word.byte v 1, Word.byte v 2, Word.byte v 3]

/-- The word whose four bytes are `b0` (least significant) to `b3`: b0 + 2^8 b1 + 2^16 b2 + 2^24 b3 (20_memory.md R44). -/
def Word.ofBytes (b0 b1 b2 b3 : Byte) : Word :=
  b3 ++ b2 ++ b1 ++ b0

/-! ### The extraction functions -/

/-- `Opcode(w) = w[28:23]` (30_encoding.md R72). -/
def opcodeField (w : Word) : BitVec 6 :=
  w.extractLsb' 23 6

/-- `Condition(w) = w[31:29]` (30_encoding.md R73). -/
def conditionField (w : Word) : BitVec 3 :=
  w.extractLsb' 29 3

/-- `Register(w, slot) = w[22-4*slot : 19-4*slot]` (30_encoding.md R74). -/
def registerField (w : Word) (slot : Fin 3) : RegIdx :=
  w.extractLsb' (19 - 4 * slot.val) 4

/-- `ImmediateValue(w, slot)`: the unsigned number made of the low `23 - 4*slot` bits of `w` (30_encoding.md R75). -/
def immediateValue (w : Word) (slot : Fin 3) : BitVec (23 - 4 * slot.val) :=
  w.extractLsb' 0 (23 - 4 * slot.val)

/-! ### The condition field and the opcode map -/

/-- The 3-bit number of a condition (30_encoding.md R77). -/
def Cond.code : Cond → BitVec 3
  | .always => 0
  | .less => 1
  | .greater => 2
  | .notEqual => 3
  | .equal => 4
  | .lessEqual => 5
  | .greaterEqual => 6
  | .anyFlag => 7

/-- The condition a 3-bit number names: all eight are legal (30_encoding.md R77). -/
def Cond.ofCode (n : BitVec 3) : Cond :=
  if n = 0 then .always
  else if n = 1 then .less
  else if n = 2 then .greater
  else if n = 3 then .notEqual
  else if n = 4 then .equal
  else if n = 5 then .lessEqual
  else if n = 6 then .greaterEqual
  else .anyFlag

/-- The mnemonic an opcode number stands for, selected by the opcode field alone; none for the numbers OPMAP
assigns to no mnemonic (30_encoding.md R76, R81). -/
def OpMap.lookup (m : OpMap) (op : BitVec 6) : Option Mnemonic :=
  Mnemonic.all.find? fun k => m.number k == op

/-! ### The decoder -/

/-- Why bytes are no instruction. -/
inductive DecodeError where
  /-- The opcode field is assigned to no mnemonic (30_encoding.md R81); what the machine then does is
  ILLEGAL_OPCODE (00_scope.md R5). -/
  | unassignedOpcode (w : Word)
  /-- Fewer than the four bytes of a word (30_encoding.md R70); no fetch gives so few. -/
  | truncated
deriving DecidableEq, Repr

/-- The instruction of an operation: only the fields its format has are looked at (30_encoding.md R78, R79). -/
def instrOf (k : Mnemonic) (w : Word) : Instr :=
  match k with
  | .ldr => .ldr (Cond.ofCode (conditionField w)) (registerField w 0) (registerField w 1)
  | .str => .str (Cond.ofCode (conditionField w)) (registerField w 0) (registerField w 1)
  | .add => .add (Cond.ofCode (conditionField w)) (registerField w 0) (registerField w 1) (registerField w 2)
  | .sub => .sub (Cond.ofCode (conditionField w)) (registerField w 0) (registerField w 1) (registerField w 2)
  | .mul => .mul (Cond.ofCode (conditionField w)) (registerField w 0) (registerField w 1) (registerField w 2)
  | .div => .div (Cond.ofCode (conditionField w)) (registerField w 0) (registerField w 1) (registerField w 2)
  | .mov => .mov (Cond.ofCode (conditionField w)) (registerField w 0) (immediateValue w 1)
  | .cmp => .cmp (Cond.ofCode (conditionField w)) (registerField w 0) (registerField w 1)
  | .jmp => .jmp (Cond.ofCode (conditionField w)) (registerField w 0)
  | .sav => .sav (Cond.ofCode (conditionField w)) (registerField w 0)
  | .prn => .prn (Cond.ofCode (conditionField w)) (registerField w 0)

/-- The decoder: pure field extraction, which fails only on an unassigned opcode (30_encoding.md R76, R81;
40_execution_cycle.md R123). -/
def decodeWord (m : OpMap) (w : Word) : Except DecodeError Instr :=
  match m.lookup (opcodeField w) with
  | some k => .ok (instrOf k w)
  | none => .error (.unassignedOpcode w)

/-- The decoder on the bytes as memory holds them, the first at the lowest address: four bytes, least significant
first (30_encoding.md R70), and what follows them. -/
def decodeBytes (m : OpMap) : List Byte → Except DecodeError (Instr × List Byte)
  | b0 :: b1 :: b2 :: b3 :: rest =>
    match decodeWord m (Word.ofBytes b0 b1 b2 b3) with
    | .ok i => .ok (i, rest)
    | .error e => .error e
  | _ => .error .truncated

/-- The instruction the decoder reads, under the default OPMAP, from the opcode table's number of it: bit 0 of `w`
is the least significant bit of the word, and only its low `nbits` bits are given (the table gives all 32). The word
is laid out as four bytes, least significant first. -/
def decodeTableWord (nbits w : Nat) : Option Instr :=
  match decodeBytes OpMap.default (Word.bytes (BitVec.ofNat 32 (w % 2 ^ nbits))) with
  | .ok (i, _) => some i
  | .error _ => none

/-! ### The encoder -/

/-- The bits an operand contributes: a register index at its slot's position, a literal at bit 0, unshifted
(30_encoding.md R85). -/
def RawOperand.bits : RawOperand → Nat
  | .reg slot i => i * 2 ^ (19 - 4 * slot.val)
  | .lit v => v

/-- `Encode(opcode, cond, operands)`: the opcode at bit 23, the condition at bit 29 and each operand XORed in, modulo
2^32; an operand that does not fit its field toggles bits of its neighbours (30_encoding.md R85, R87). -/
def compose (q : RawInstr) : Word :=
  BitVec.ofNat 32 (q.operands.foldl (fun w o => w ^^^ o.bits) ((q.opcode * 2 ^ 23) ^^^ (q.cond * 2 ^ 29)))

/-- The operands of an instruction as `Encode` takes them, slots 0, 1, 2 in left-to-right order (30_encoding.md
R78, R86). -/
def Instr.rawOperands : Instr → List RawOperand
  | .ldr _ d a => [.reg 0 d.toNat, .reg 1 a.toNat]
  | .str _ v a => [.reg 0 v.toNat, .reg 1 a.toNat]
  | .add _ d a b => [.reg 0 d.toNat, .reg 1 a.toNat, .reg 2 b.toNat]
  | .sub _ d a b => [.reg 0 d.toNat, .reg 1 a.toNat, .reg 2 b.toNat]
  | .mul _ d a b => [.reg 0 d.toNat, .reg 1 a.toNat, .reg 2 b.toNat]
  | .div _ d a b => [.reg 0 d.toNat, .reg 1 a.toNat, .reg 2 b.toNat]
  | .mov _ d v => [.reg 0 d.toNat, .lit v.toNat]
  | .cmp _ a b => [.reg 0 a.toNat, .reg 1 b.toNat]
  | .jmp _ t => [.reg 0 t.toNat]
  | .sav _ d => [.reg 0 d.toNat]
  | .prn _ r => [.reg 0 r.toNat]

/-- The tuple (op, cond, operands) of an instruction, as numbers: what the round trip of 30_encoding.md R86 calls the
result of `Decode` (91_not_in_source.md N14). -/
def Instr.toRaw (m : OpMap) (i : Instr) : RawInstr :=
  { opcode := (m.number i.mnemonic).toNat, cond := i.cond.code.toNat, operands := i.rawOperands }

/-- The word of an instruction, its ignored bits 0 (30_encoding.md R79, R85). -/
def encode (m : OpMap) (i : Instr) : Word :=
  compose (i.toRaw m)

/-- `Decode` as the round trip of 30_encoding.md R86 has it: the tuple of numbers a word carries. -/
def decodeRaw (m : OpMap) (w : Word) : Except DecodeError RawInstr :=
  match decodeWord m w with
  | .ok i => .ok (i.toRaw m)
  | .error e => .error e

/-- The bits of a word that a format looks at; it ignores the others (30_encoding.md R78, R79). -/
def Format.usedBits : Format → Word
  | .r3 => 0xFFFFF800#32
  | .r2 => 0xFFFF8000#32
  | .r1 => 0xFFF80000#32
  | .ri => 0xFFFFFFFF#32

end Sys2Proof
end

