-- ==== Sys2Proof/Machine/State.lean ====
section
/-! DEFINITION. The whole architectural state of the CORE (10_state.md): sixteen registers, three flags, one byte memory,
CODE_LEN, RUN with its CAUSE and INFO, and OUT; beside them, apart, the implementation parameters the machine was
built with. The reasons for which a step can stop, and the state after reset. -/

namespace Sys2Proof.Machine

/-- RUN, the run state (10_state.md R22). -/
inductive RunState where
  /-- Before a run: the CORE waits for the host. -/
  | idle
  /-- The CORE repeats its step. -/
  | running
  /-- The run has ended normally (60_exceptions.md R250). -/
  | halted
  /-- The run has ended in a fatal stop (60_exceptions.md R239, R240). -/
  | faulted
deriving DecidableEq, Repr

/-- CAUSE, the six fatal conditions (60_exceptions.md R231). -/
inductive Cause where
  /-- 1: an executed `div` with a zero divisor; INFO is the address of the `div`. -/
  | divideByZero
  /-- 2: an executed `ldr` whose four bytes are not all inside memory; INFO is the address. -/
  | outOfBoundsLoad
  /-- 3: an executed `str` whose four bytes are not all inside memory; INFO is the address. -/
  | outOfBoundsStore
  /-- 4: a fetch whose four bytes are not all inside memory; INFO is the address. -/
  | outOfBoundsFetch
  /-- 5: a fetch at a program counter that is no multiple of 4; INFO is the program counter. -/
  | fetchMisaligned
  /-- 6: a word whose opcode is assigned to no mnemonic; INFO is the word. -/
  | illegalOpcode
deriving DecidableEq, Repr

/-- The state of the CORE. Plain data: two states can be compared and written out. -/
structure State where
  /-- The register file x[0] to x[15]; x[15] is the program counter (10_state.md R10, R13). -/
  regs : Vector Word 16
  /-- E, G, L (10_state.md R18). -/
  flags : Flags
  /-- MEM (20_memory.md R40). -/
  mem : Memory
  /-- CODE_LEN, the byte length of the loaded program (10_state.md R21). -/
  codeLen : Word
  /-- RUN (10_state.md R22). -/
  run : RunState
  /-- CAUSE: none until a fatal stop (10_state.md R22, R30). -/
  cause : Option Cause
  /-- INFO: none until a fatal stop (10_state.md R22, R30). -/
  info : Option Word
  /-- OUT, the bytes handed to the output port since reset, in order (10_state.md R23). -/
  out : List Byte
  /-- The model's own field: the implementation parameters of 00_scope.md R2 to R7. Nothing writes it. -/
  cfg : Config
deriving DecidableEq, Repr

/-- The reasons for which `step` has no next state: the CORE is not running, so that "no further step happens"
(40_execution_cycle.md R121, R129; 60_exceptions.md R239, R240). A fatal condition of the spec is none of these: it is
a next state whose RUN is FAULTED. -/
inductive Fault where
  /-- Raised by `step` alone, when RUN = IDLE: the CORE waits for the host's LOAD and RUN (70_reset_and_hazards.md R272).
  Safe: the spec defines no step here. -/
  | idle
  /-- Raised by `step` alone, when RUN = HALTED: the run has completed (40_execution_cycle.md R121).
  Safe: the spec says that no further step happens. -/
  | halted
  /-- Raised by `step` alone, when RUN = FAULTED: the run has ended in a fatal stop (60_exceptions.md R239, R240).
  Safe: the spec says that no further step happens. -/
  | faulted
deriving DecidableEq, Repr

/-- What is turned away without being done. -/
inductive Refusal where
  /-- An instruction with no meaning in this model. No arm of `exec` answers it: every instruction is modelled.
  Safe: nothing can be proved of what would follow. -/
  | notModelled (mnemonic : String)
  /-- Raised by the host's LOAD when RUN is not IDLE (70_reset_and_hazards.md R271, R278). Safe: nothing is done. -/
  | loadNotIdle
  /-- Raised by the host's LOAD of a program longer than memory (70_reset_and_hazards.md R271; 92_eei_decisions.md D11).
  Safe: nothing is written. -/
  | loadTooLong
  /-- Raised by the host's RUN when RUN is not IDLE (70_reset_and_hazards.md R272, R278). Safe: nothing is done. -/
  | runNotIdle
deriving DecidableEq, Repr

/-- The state after RESET of a CORE built with the parameters `cfg`: x[0] to x[14], the flags and the memory at the
reset values the parameters name, x[15] = 0, CODE_LEN = 0, RUN = IDLE, no CAUSE, no INFO, OUT empty
(10_state.md R30, R32; 70_reset_and_hazards.md R270). -/
def State.resetOf (cfg : Config) : State :=
  { regs := cfg.resetRegs.push 0#32
    flags := cfg.resetFlags
    mem := cfg.resetMem
    codeLen := 0#32
    run := .idle
    cause := none
    info := none
    out := []
    cfg := cfg }

/-- The state after RESET with every parameter at the spec's default: all registers 0, all flags 0, every memory byte
0 (10_state.md R30). -/
def State.reset : State :=
  State.resetOf Config.default

end Sys2Proof.Machine
end

