-- ==== Sys2Proof/Machine/Flags.lean ====
section
/-! DEFINITION. Every flag computation there is: the comparison that writes E, G, L (44_compare.md R190) and the condition
gate that reads them (40_execution_cycle.md R125, R127). -/

namespace Sys2Proof.Machine

/-- E, G, L of a comparison of `p` with `q`, unsigned (44_compare.md R190). -/
def compareFlags (p q : Word) : Flags :=
  { equal := decide (p = q), greater := decide (q < p), less := decide (p < q) }

/-- The 3-bit flag vector `4*E + 2*G + L` (40_execution_cycle.md R125). -/
def flagVector (f : Flags) : BitVec 3 :=
  BitVec.ofBool f.equal ++ BitVec.ofBool f.greater ++ BitVec.ofBool f.less

/-- `ConditionSet(cond)`: 0 always, any other code iff the AND with the flag vector is nonzero, for all eight codes
(40_execution_cycle.md R125; 92_eei_decisions.md D6). -/
def conditionSet (c : Cond) (f : Flags) : Bool :=
  if c.code = 0 then true else flagVector f &&& c.code != 0

/-- The gate in front of a body: the body runs iff the condition is set; a skipped instruction leaves everything as it
is, the advance being done already (40_execution_cycle.md R125, R127). -/
def gated (c : Cond) (s : State) (body : Host.Outcome State Fault Refusal) : Host.Outcome State Fault Refusal :=
  if conditionSet c s.flags then body else .next s

end Sys2Proof.Machine
end

