-- ==== Sys2Proof/Machine/Memory.lean ====
section
/-! DEFINITION. The byte memory as data: reading one byte, writing one byte in the canonical form, and the four-byte
little-endian words built from them (20_memory.md R40, R43). Bounds are checked by the access primitives of Ops.lean. -/

namespace Sys2Proof

/-- The byte at an address: the listed one, or what an unlisted address reads as. -/
def Memory.read : Memory → Nat → Byte
  | [], _ => Memory.unlisted
  | (k, b) :: rest, a => if k = a then b else Memory.read rest a

/-- Write one byte and keep the canonical form: a byte equal to `Memory.unlisted` is not listed. -/
def Memory.write : Memory → Nat → Byte → Memory
  | [], a, v => if v = Memory.unlisted then [] else [(a, v)]
  | (k, b) :: rest, a, v =>
    if a < k then (if v = Memory.unlisted then (k, b) :: rest else (a, v) :: (k, b) :: rest)
    else if a = k then (if v = Memory.unlisted then rest else (a, v) :: rest)
    else (k, b) :: Memory.write rest a v

/-- MEM[a] + 2^8 MEM[a+1] + 2^16 MEM[a+2] + 2^24 MEM[a+3] (20_memory.md R44). -/
def Memory.readWord (m : Memory) (a : Nat) : Word :=
  Word.ofBytes (m.read a) (m.read (a + 1)) (m.read (a + 2)) (m.read (a + 3))

/-- MEM[a] <- v[7:0], …, MEM[a+3] <- v[31:24] (20_memory.md R45). -/
def Memory.writeWord (m : Memory) (a : Nat) (v : Word) : Memory :=
  (((m.write a (Word.byte v 0)).write (a + 1) (Word.byte v 1)).write (a + 2) (Word.byte v 2)).write (a + 3)
    (Word.byte v 3)

/-- Write a sequence of words from `a` on, each little-endian: the copy of the host's LOAD (70_reset_and_hazards.md R271). -/
def Memory.writeWords : Memory → Nat → List Word → Memory
  | m, _, [] => m
  | m, a, v :: vs => Memory.writeWords (m.writeWord a v) (a + 4) vs

end Sys2Proof
end

