-- ==== Sys2Proof/Machine/Ops.lean ====
section
/-! DEFINITION. The named operations over the state: the register file (10_state.md R10, R13), entering a fatal stop
(60_exceptions.md R239), the memory access primitives (20_memory.md R44, R45, R46) and the output port (46_output.md R217).
There is no return from a fatal stop (60_exceptions.md R240): only the host's RESET (HostOps.lean) leaves it. -/

namespace Sys2Proof.Machine

/-! ### Registers -/

/-- `x[r]` (10_state.md R10). -/
def State.reg (s : State) (r : RegIdx) : Word :=
  s.regs.get ⟨r.toNat, r.isLt⟩

/-- `x[r] <- v`; no register is hardwired, and register 15 is the program counter (10_state.md R11, R13). -/
def State.setReg (s : State) (r : RegIdx) (v : Word) : State :=
  { s with regs := s.regs.set r.toNat v r.isLt }

/-- `pc`, another name for `x[15]` (00_scope.md section 5; 10_state.md R13). -/
def State.pc (s : State) : Word :=
  s.reg RegIdx.pc

/-- `pc <- v`. -/
def State.setPc (s : State) (v : Word) : State :=
  s.setReg RegIdx.pc v

/-! ### Fatal stops -/

/-- A fatal condition: its CAUSE and the INFO recorded with it (60_exceptions.md R231). -/
structure Exn where
  cause : Cause
  info : Word
deriving DecidableEq, Repr

/-- The number of a cause (60_exceptions.md R231). -/
def Cause.code : Cause → Nat
  | .divideByZero => 1
  | .outOfBoundsLoad => 2
  | .outOfBoundsStore => 3
  | .outOfBoundsFetch => 4
  | .fetchMisaligned => 5
  | .illegalOpcode => 6

/-- `raise X(info)`: RUN <- FAULTED, CAUSE and INFO are recorded, nothing else changes (60_exceptions.md R239). -/
def raise (e : Exn) (s : State) : State :=
  { s with run := .faulted, cause := some e.cause, info := some e.info }

/-! ### Memory access -/

/-- Which of the three accesses of a step it is (20_memory.md R42, R44, R45). -/
inductive Access where
  | fetch
  | load
  | store
deriving DecidableEq, Repr

/-- MemoryOutOfBounds(kind, addr) (60_exceptions.md R231). -/
def outOfBounds (kind : Access) (addr : Word) : Exn :=
  match kind with
  | .fetch => { cause := .outOfBoundsFetch, info := addr }
  | .load => { cause := .outOfBoundsLoad, info := addr }
  | .store => { cause := .outOfBoundsStore, info := addr }

/-- The four bytes at `addr` lie wholly inside the array: `addr + 4 <= MEM_SIZE`, the sum taken on unbounded integers
(20_memory.md R46). -/
def inBounds (s : State) (addr : Word) : Bool :=
  decide (addr.toNat + 4 ≤ s.cfg.memSize)

/-- `MemRead(addr, 4)` (20_memory.md R44). -/
def memRead (kind : Access) (addr : Word) (s : State) : Except Exn Word :=
  if inBounds s addr then .ok (s.mem.readWord addr.toNat) else .error (outOfBounds kind addr)

/-- `MemWrite(addr, 4, v)`: all four bytes or none (20_memory.md R45). -/
def memWrite (addr v : Word) (s : State) : Except Exn State :=
  if inBounds s addr then .ok { s with mem := s.mem.writeWord addr.toNat v } else .error (outOfBounds .store addr)

/-! ### Output -/

/-- `OUT <- OUT ++ bytes`: the port always accepts (46_output.md R215, R217). -/
def emit (bytes : List Byte) (s : State) : State :=
  { s with out := s.out ++ bytes }

end Sys2Proof.Machine
end

