-- ==== Sys2Proof/Machine/Operands.lean ====
section
/-! DEFINITION. Every operand form of the instruction set: the register operand, the register-indirect address (the one
addressing mode, 41_load_store.md R152) and the 19-bit literal (30_encoding.md R80). All of them read the state with
x[15] already advanced (10_state.md R14). -/

namespace Sys2Proof.Machine

/-- A register source operand: register 15 reads as the address of the following instruction (10_state.md R12, R14). -/
def registerOperand (r : RegIdx) (s : State) : Word :=
  s.reg r

/-- The effective address `x[addrReg]`: no displacement, no index, no modification of the register (41_load_store.md R152). -/
def indirectAddress (r : RegIdx) (s : State) : Word :=
  s.reg r

/-- `zext_32(imm19)`: unsigned, neither sign-extended nor scaled; no register is read (30_encoding.md R80; 43_move.md R181). -/
def literalOperand (imm19 : BitVec 19) : Word :=
  imm19.setWidth 32

/-- The address of the instruction whose body runs: `x[15] - 4`, since x[15] is advanced already (42_arithmetic.md R164). -/
def currentInstruction (s : State) : Word :=
  s.pc - 4#32

end Sys2Proof.Machine
end

