-- ==== Sys2Proof/Machine/Cycle.lean ====
section
/-! DEFINITION. The parts of a step that every instruction has in common (40_execution_cycle.md): the halting test, the
fetch, the advance, and what an unassigned opcode does. Step.lean puts them together. -/

namespace Sys2Proof.Machine

/-- The halting test at the loop head: `x[15] >= CODE_LEN`, unsigned (40_execution_cycle.md R121). -/
def atEnd (s : State) : Bool :=
  decide (s.codeLen ≤ s.pc)

/-- The run is over: RUN <- HALTED, nothing else changes (40_execution_cycle.md R121). -/
def halt (s : State) : State :=
  { s with run := .halted }

/-- The program counter is a multiple of 4 (20_memory.md R48). -/
def pcAligned (s : State) : Bool :=
  decide (s.pc.toNat % 4 = 0)

/-- Fetch: the word at the program counter. A misaligned program counter does what FETCH_MISALIGNED says, and is
looked at before the bounds (20_memory.md R48; 40_execution_cycle.md R122; 60_exceptions.md R238). -/
def fetch (s : State) : Except Exn Word :=
  if pcAligned s then memRead .fetch s.pc s
  else
    match s.cfg.fetchMisaligned with
    | .fault => .error { cause := .fetchMisaligned, info := s.pc }
    | .byteFetch => memRead .fetch s.pc s

/-- Advance: `x[15] <- x[15] +32 4`, for every fetched instruction, before its body (40_execution_cycle.md R124). -/
def advance (s : State) : State :=
  s.setPc (s.pc + 4#32)

/-- The fatal condition of a word whose opcode is assigned to no mnemonic (60_exceptions.md R236). -/
def illegalOpcode (w : Word) : Exn :=
  { cause := .illegalOpcode, info := w }

/-- What such a word does, from the state before the advance, under each setting of ILLEGAL_OPCODE
(00_scope.md R5; 40_execution_cycle.md R123, R128). -/
def undefinedOpcode (w : Word) (s : State) : Host.Outcome State Fault Refusal :=
  match s.cfg.illegalOpcode with
  | .faultAlways => .next (raise (illegalOpcode w) s)
  | .faultIfExecuted =>
    gated (Cond.ofCode (conditionField w)) (advance s) (.next (raise (illegalOpcode w) (advance s)))
  | .nop => .next (advance s)

/-- Where the model's `withFetchWord` puts an instruction: at the program counter, if an aligned fetch there stays
inside memory; else at byte 0, where a program starts (10_state.md R31). -/
def fetchPlace (s : State) : Word :=
  if pcAligned s && inBounds s s.pc then s.pc else 0#32

/-- `s` with the four bytes of `w` where the next step fetches, the program counter there, the code region reaching
past them, and the run started. -/
def placeWord (w : Word) (s : State) : State :=
  { s with
    regs := (s.setPc (fetchPlace s)).regs
    mem := s.mem.writeWord (fetchPlace s).toNat w
    codeLen := if fetchPlace s < s.codeLen then s.codeLen else fetchPlace s + 4#32
    run := .running }

end Sys2Proof.Machine
end

