-- ==== Sys2Proof/Machine/Arithmetic.lean ====
section
/-! DEFINITION. The meanings of `add`, `sub`, `mul` and `div` (42_arithmetic.md): unsigned 32-bit arithmetic modulo 2^32,
no flag written, no exception but `div`'s (R165). -/

namespace Sys2Proof.Machine

/-- Both sources are read before `dst` is written (42_arithmetic.md R160). -/
def binary (f : Word → Word → Word) (dst a b : RegIdx) (s : State) : State :=
  s.setReg dst (f (registerOperand a s) (registerOperand b s))

/-- `add dst, a, b`: x[dst] <- (x[a] + x[b]) mod 2^32 (42_arithmetic.md R161). -/
def execAdd (c : Cond) (dst a b : RegIdx) (s : State) : Host.Outcome State Fault Refusal :=
  gated c s (.next (binary (fun x y => x + y) dst a b s))

/-- `sub dst, a, b`: x[dst] <- (x[a] - x[b]) mod 2^32, first source minus second (42_arithmetic.md R162). -/
def execSub (c : Cond) (dst a b : RegIdx) (s : State) : Host.Outcome State Fault Refusal :=
  gated c s (.next (binary (fun x y => x - y) dst a b s))

/-- `mul dst, a, b`: x[dst] <- (x[a] * x[b]) mod 2^32, the low 32 bits of the product (42_arithmetic.md R163). -/
def execMul (c : Cond) (dst a b : RegIdx) (s : State) : Host.Outcome State Fault Refusal :=
  gated c s (.next (binary (fun x y => x * y) dst a b s))

/-- `div dst, a, b`: DivideByZero with the address of this `div` when x[b] = 0, else x[dst] <- floor(x[a] / x[b])
(42_arithmetic.md R164). -/
def execDiv (c : Cond) (dst a b : RegIdx) (s : State) : Host.Outcome State Fault Refusal :=
  gated c s <|
    if registerOperand b s = 0#32 then .next (raise { cause := .divideByZero, info := currentInstruction s } s)
    else .next (binary (fun x y => x / y) dst a b s)

end Sys2Proof.Machine
end

