-- ==== Sys2Proof/Machine/Compare.lean ====
section
/-! DEFINITION. The meaning of `cmp`, the only writer of the flags (44_compare.md; 10_state.md R19). -/

namespace Sys2Proof.Machine

/-- `cmp a, b`: each of E, G, L gets a fresh value (44_compare.md R190). -/
def execCmp (c : Cond) (a b : RegIdx) (s : State) : Host.Outcome State Fault Refusal :=
  gated c s (.next { s with flags := compareFlags (registerOperand a s) (registerOperand b s) })

end Sys2Proof.Machine
end

