-- ==== Sys2Proof/Machine/Control.lean ====
section
/-! DEFINITION. The meanings of `jmp` and `sav` (45_control_transfer.md). A body of any family whose destination is register
15 transfers control too (R202): x[15] is a register like the others. -/

namespace Sys2Proof.Machine

/-- `jmp dst`: x[15] <- x[dst], absolute; the target is looked at only by the next step (45_control_transfer.md R200). -/
def execJmp (c : Cond) (target : RegIdx) (s : State) : Host.Outcome State Fault Refusal :=
  gated c s (.next (s.setPc (registerOperand target s)))

/-- `sav dst`: x[dst] <- x[15], the address of the next instruction (45_control_transfer.md R201). -/
def execSav (c : Cond) (dst : RegIdx) (s : State) : Host.Outcome State Fault Refusal :=
  gated c s (.next (s.setReg dst s.pc))

end Sys2Proof.Machine
end

