-- ==== Sys2Proof/Machine/LoadStore.lean ====
section
/-! DEFINITION. The meanings of `ldr` and `str` (41_load_store.md). As in every family, a meaning is the gated body of the
instruction, run on the state whose x[15] is advanced already (40_execution_cycle.md R129). -/

namespace Sys2Proof.Machine

/-- `ldr dst, addrReg`: x[dst] <- MemRead(x[addrReg], 4); out of bounds, the fatal stop comes before the write
(41_load_store.md R150). -/
def execLdr (c : Cond) (dst addrReg : RegIdx) (s : State) : Host.Outcome State Fault Refusal :=
  gated c s <|
    match memRead .load (indirectAddress addrReg s) s with
    | .ok v => .next (s.setReg dst v)
    | .error e => .next (raise e s)

/-- `str valReg, addrReg`: MemWrite(x[addrReg], 4, x[valReg]); out of bounds, no byte is written (41_load_store.md R151). -/
def execStr (c : Cond) (valReg addrReg : RegIdx) (s : State) : Host.Outcome State Fault Refusal :=
  gated c s <|
    match memWrite (indirectAddress addrReg s) (registerOperand valReg s) s with
    | .ok t => .next t
    | .error e => .next (raise e s)

end Sys2Proof.Machine
end

