-- ==== Sys2Proof/Machine/Move.lean ====
section
/-! DEFINITION. The meaning of `mov` (43_move.md). -/

namespace Sys2Proof.Machine

/-- `mov dst, src`: x[dst] <- zext_32(imm19), whatever the assembler's spelling of the source was; no register is read
(43_move.md R180, R181). -/
def execMov (c : Cond) (dst : RegIdx) (imm19 : BitVec 19) (s : State) : Host.Outcome State Fault Refusal :=
  gated c s (.next (s.setReg dst (literalOperand imm19)))

end Sys2Proof.Machine
end

