-- ==== Sys2Proof/Machine/Output.lean ====
section
/-! DEFINITION. The meaning of `prn` (46_output.md), the only instruction with an effect outside registers, flags and
memory (R219). -/

namespace Sys2Proof.Machine

/-- `prn src`: the four bytes of x[src], least significant first, zero bytes included (46_output.md R215, R216). -/
def execPrn (c : Cond) (src : RegIdx) (s : State) : Host.Outcome State Fault Refusal :=
  gated c s (.next (emit (Word.bytes (registerOperand src s)) s))

end Sys2Proof.Machine
end

