-- ==== Sys2Proof/Machine/Dispatch.lean ====
section
/-! DEFINITION. Dispatch of the body by the instruction (30_encoding.md R76; 40_execution_cycle.md R128). The state is the one
whose x[15] is advanced past the instruction already (40_execution_cycle.md R124, R129). -/

namespace Sys2Proof.Machine

def exec (i : Instr) (s : State) : Host.Outcome State Fault Refusal :=
  match i with
  | .ldr c dst addrReg => Sys2Proof.Machine.execLdr c dst addrReg s
  | .str c valReg addrReg => Sys2Proof.Machine.execStr c valReg addrReg s
  | .add c dst a b => Sys2Proof.Machine.execAdd c dst a b s
  | .sub c dst a b => Sys2Proof.Machine.execSub c dst a b s
  | .mul c dst a b => Sys2Proof.Machine.execMul c dst a b s
  | .div c dst a b => Sys2Proof.Machine.execDiv c dst a b s
  | .mov c dst imm19 => Sys2Proof.Machine.execMov c dst imm19 s
  | .cmp c a b => Sys2Proof.Machine.execCmp c a b s
  | .jmp c target => Sys2Proof.Machine.execJmp c target s
  | .sav c dst => Sys2Proof.Machine.execSav c dst s
  | .prn c src => Sys2Proof.Machine.execPrn c src s

end Sys2Proof.Machine
end

