-- ==== Sys2Proof/Machine/Step.lean ====
section
/-! DEFINITION. One step of the CORE, the pseudocode of 40_execution_cycle.md R129 under every setting of the parameters. -/

namespace Sys2Proof.Machine

/-- The step of a running CORE: halting test, fetch, decode, advance, gate and body (40_execution_cycle.md R121 to R129). -/
def stepRunning (s : State) : Host.Outcome State Fault Refusal :=
  if atEnd s then .next (halt s)
  else
    match fetch s with
    | .error e => .next (raise e s)
    | .ok w =>
      match decodeWord s.cfg.opmap w with
      | .error _ => undefinedOpcode w s
      | .ok i => exec i (advance s)

/-- One step. It is defined only when RUN = RUNNING (40_execution_cycle.md R129): in the other three run states no step
happens, and the model answers a fault named after the run state. -/
def step (s : State) : Host.Outcome State Fault Refusal :=
  match s.run with
  | .idle => .fault .idle
  | .halted => .fault .halted
  | .faulted => .fault .faulted
  | .running => stepRunning s

/-- `s` with the instruction whose bits are `w` (only its low `nbits` given, the others 0) stored where `step` fetches
next, and the run started, so that the very next step runs it: the LOAD and RUN of the host for one word. -/
def State.withFetchWord (s : State) (nbits w : Nat) : State :=
  placeWord (BitVec.ofNat 32 (w % 2 ^ nbits)) s

end Sys2Proof.Machine
end

