-- ==== Sys2Proof/Machine/Assembler.lean ====
section
/-! DEFINITION. The toolchain's text format (30_encoding.md R90 to R101), software outside the CORE: the assembler from text
to instruction words, and the disassembly of one instruction. Text is a list of characters. -/

namespace Sys2Proof.Assembler

/-- The failures of the assembler; each aborts the whole assembly with no partial output (30_encoding.md R99). -/
inductive AsmError where
  /-- "An unrecognized mnemonic (after stripping condition suffix)", an illegal suffix included (30_encoding.md R91, R92). -/
  | unrecognizedMnemonic
  /-- "A non-numeric operand where a number is expected" (30_encoding.md R96, R99). -/
  | nonNumericOperand
  /-- A fourth register operand: no slot 3 exists (30_encoding.md R94; 92_eei_decisions.md D13). -/
  | fourthRegisterOperand
deriving DecidableEq, Repr

/-- A token: a run of characters without white space. -/
abbrev Token := List Char

/-! ### Lines and tokens (R90) -/

/-- White space inside a line. -/
def isBlank (ch : Char) : Bool :=
  ch == ' ' || ch == '\t' || ch == '\r'

/-- Cut a text at every character that `sep` holds of, keeping empty pieces. -/
def cutAt (sep : Char → Bool) : List Char → List (List Char)
  | [] => [[]]
  | ch :: rest =>
    if sep ch then [] :: cutAt sep rest
    else
      match cutAt sep rest with
      | [] => [[ch]]
      | piece :: pieces => (ch :: piece) :: pieces

/-- The tokens of a line, "separated by whitespace" (30_encoding.md R90). -/
def tokensOf (line : List Char) : List Token :=
  (cutAt isBlank line).filter (fun piece => !piece.isEmpty)

/-- The instruction lines of a text, each as its tokens: "one instruction per non-blank line" (30_encoding.md R90). -/
def linesOf (text : List Char) : List (List Token) :=
  ((cutAt (fun ch => ch == '\n') text).map tokensOf).filter (fun tokens => !tokens.isEmpty)

/-! ### Mnemonics and suffixes (R91, R92) -/

/-- The spelling of a mnemonic (30_encoding.md R91). -/
def spelling : Mnemonic → Token
  | .ldr => ['l', 'd', 'r']
  | .str => ['s', 't', 'r']
  | .add => ['a', 'd', 'd']
  | .sub => ['s', 'u', 'b']
  | .mul => ['m', 'u', 'l']
  | .div => ['d', 'i', 'v']
  | .mov => ['m', 'o', 'v']
  | .cmp => ['c', 'm', 'p']
  | .jmp => ['j', 'm', 'p']
  | .sav => ['s', 'a', 'v']
  | .prn => ['p', 'r', 'n']

/-- The suffix a disassembler prints for a condition; condition 7 has no spelling (30_encoding.md R77, R92). -/
def suffix : Cond → Option Token
  | .always => some []
  | .less => some ['l']
  | .greater => some ['g']
  | .notEqual => some ['n', 'e']
  | .equal => some ['e']
  | .lessEqual => some ['l', 'e']
  | .greaterEqual => some ['g', 'e']
  | .anyFlag => none

/-- The value of a condition letter: `e` 4, `g` 2, `l` 1 (30_encoding.md R92). -/
def letterCode (ch : Char) : Option Nat :=
  if ch == 'e' then some 4 else if ch == 'g' then some 2 else if ch == 'l' then some 1 else none

/-- The condition number of a suffix: none 0, `ne` 3, one or two distinct letters the sum of their values, anything
else a failure (30_encoding.md R92). -/
def suffixCode : Token → Except AsmError Nat
  | [] => .ok 0
  | ['n', 'e'] => .ok 3
  | [a] =>
    match letterCode a with
    | some x => .ok x
    | none => .error .unrecognizedMnemonic
  | [a, b] =>
    match letterCode a, letterCode b with
    | some x, some y => if a == b then .error .unrecognizedMnemonic else .ok (x + y)
    | _, _ => .error .unrecognizedMnemonic
  | _ => .error .unrecognizedMnemonic

/-- The first token: its first three characters are the mnemonic, the rest the suffix (30_encoding.md R91). -/
def parseMnemonic (token : Token) : Except AsmError (Mnemonic × Nat) :=
  match Mnemonic.all.find? fun k => spelling k == token.take 3 with
  | none => .error .unrecognizedMnemonic
  | some k =>
    match suffixCode (token.drop 3) with
    | .ok c => .ok (k, c)
    | .error e => .error e

/-! ### Operands (R93 to R96) -/

/-- The value of a decimal digit. -/
def digitValue (ch : Char) : Option Nat :=
  if '0'.toNat ≤ ch.toNat && ch.toNat ≤ '9'.toNat then some (ch.toNat - '0'.toNat) else none

/-- Read decimal digits after the value read so far. -/
def readDigits : Nat → List Char → Option Nat
  | n, [] => some n
  | n, ch :: rest =>
    match digitValue ch with
    | some d => readDigits (10 * n + d) rest
    | none => none

/-- An unsigned decimal number: at least one digit and nothing else (30_encoding.md R96). -/
def parseNumber (digits : List Char) : Except AsmError Nat :=
  match digits with
  | [] => .error .nonNumericOperand
  | _ =>
    match readDigits 0 digits with
    | some n => .ok n
    | none => .error .nonNumericOperand

/-- The byte address of `%N` for a program of `lines` instruction lines: N*4 + 4*lines + 1 (30_encoding.md R95;
20_memory.md R53). -/
def dataAddress (lines n : Nat) : Nat :=
  n * 4 + lines * 4 + 1

/-- The operands of a line, left to right; `used` register operands stand before them (30_encoding.md R93 to R96). -/
def parseOperands (lines : Nat) : Nat → List Token → Except AsmError (List RawOperand)
  | _, [] => .ok []
  | used, token :: rest =>
    if token.contains 'r' then
      match parseNumber (token.filter (fun ch => ch != 'r')) with
      | .error e => .error e
      | .ok i =>
        if h : used < 3 then
          match parseOperands lines (used + 1) rest with
          | .ok ops => .ok (.reg ⟨used, h⟩ i :: ops)
          | .error e => .error e
        else .error .fourthRegisterOperand
    else if token.contains '%' then
      match parseNumber (token.filter (fun ch => ch != '%')) with
      | .error e => .error e
      | .ok n =>
        match parseOperands lines used rest with
        | .ok ops => .ok (.lit (dataAddress lines n) :: ops)
        | .error e => .error e
    else
      match parseNumber token with
      | .error e => .error e
      | .ok n =>
        match parseOperands lines used rest with
        | .ok ops => .ok (.lit n :: ops)
        | .error e => .error e

/-! ### Assembly (R97) and disassembly (R101) -/

/-- The word of one instruction line; neither the number nor the kind of its operands is checked (30_encoding.md R97). -/
def assembleLine (m : OpMap) (lines : Nat) : List Token → Except AsmError Word
  | [] => .error .unrecognizedMnemonic
  | first :: operands =>
    match parseMnemonic first with
    | .error e => .error e
    | .ok (k, c) =>
      match parseOperands lines 0 operands with
      | .error e => .error e
      | .ok ops => .ok (compose { opcode := (m.number k).toNat, cond := c, operands := ops })

/-- The words of the lines in source order, or the first failure. -/
def assembleLines (m : OpMap) (lines : Nat) : List (List Token) → Except AsmError (List Word)
  | [] => .ok []
  | line :: rest =>
    match assembleLine m lines line with
    | .error e => .error e
    | .ok w =>
      match assembleLines m lines rest with
      | .error e => .error e
      | .ok ws => .ok (w :: ws)

/-- `Assemble(text)`: one word per instruction line, in source order, or a failure and no output (30_encoding.md R97, R99).
The lines are counted before any is encoded (R95). -/
def assemble (m : OpMap) (text : List Char) : Except AsmError (List Word) :=
  assembleLines m (linesOf text).length (linesOf text)

/-- The decimal digits of `n`, in front of `acc`; `fuel` bounds their number. -/
def decimalDigits : Nat → Nat → List Char → List Char
  | 0, _, acc => acc
  | fuel + 1, n, acc =>
    if n < 10 then Char.ofNat ('0'.toNat + n) :: acc
    else decimalDigits fuel (n / 10) (Char.ofNat ('0'.toNat + n % 10) :: acc)

/-- A number below 10^10 in decimal. -/
def decimal (n : Nat) : Token :=
  decimalDigits 10 n []

/-- An operand as text: `r<i>` or a decimal literal (30_encoding.md R98). -/
def operandText : RawOperand → Token
  | .reg _ i => 'r' :: decimal i
  | .lit v => decimal v

/-- The well-formed line of an instruction, as tokens, by its format; none for condition 7, which has no spelling
(30_encoding.md R98, R101). -/
def disassemble (i : Instr) : Option (List Token) :=
  match suffix i.cond with
  | none => none
  | some letters => some ((spelling i.mnemonic ++ letters) :: i.rawOperands.map operandText)

end Sys2Proof.Assembler
end

