-- ==== Sys2Proof/Machine/HostOps.lean ====
section
/-! DEFINITION. The host's side of the interface (70_reset_and_hazards.md R270 to R272, R278): its three moves, RESET, LOAD and
RUN, and what it gets to see. They happen between runs and are no steps of the CORE. -/

namespace Sys2Proof.Machine

/-- RESET: every piece of state to its reset value, from any state; the parameters stay, being the machine's
(70_reset_and_hazards.md R270). -/
def hostReset (s : State) : State :=
  State.resetOf s.cfg

/-- LOAD(words): only in IDLE; refused when `4*n > MEM_SIZE`; else the words go to byte 0 upward, little-endian, and
CODE_LEN <- 4*n; nothing else is written (70_reset_and_hazards.md R271). -/
def hostLoad (words : List Word) (s : State) : Host.Outcome State Fault Refusal :=
  if s.run = .idle then
    if s.cfg.memSize < 4 * words.length then .refused .loadTooLong
    else .next { s with mem := s.mem.writeWords 0 words, codeLen := BitVec.ofNat 32 (4 * words.length) }
  else .refused .loadNotIdle

/-- RUN: only in IDLE; RUN <- RUNNING (70_reset_and_hazards.md R272). -/
def hostRun (s : State) : Host.Outcome State Fault Refusal :=
  if s.run = .idle then .next { s with run := .running } else .refused .runNotIdle

/-- The host's moves; there is no other (70_reset_and_hazards.md R278). -/
inductive HostMove where
  | reset
  | load (words : List Word)
  | run
deriving DecidableEq, Repr

/-- One move of the host. -/
def hostStep (move : HostMove) (s : State) : Host.Outcome State Fault Refusal :=
  match move with
  | .reset => .next (hostReset s)
  | .load words => hostLoad words s
  | .run => hostRun s

/-- What the host gets (70_reset_and_hazards.md R278; 20_memory.md R60). -/
inductive HostView where
  /-- No run has ended: only the output bytes so far. -/
  | pending (output : List Byte)
  /-- Normal completion: registers, flags and memory may be read, and the shown output ends in the terminator. -/
  | completed (regs : Vector Word 16) (flags : Flags) (mem : Memory) (shown : List Byte)
  /-- "A distinct failure kind": CAUSE and INFO, and the output bytes without a terminator. -/
  | failed (cause : Option Cause) (info : Option Word) (output : List Byte)
deriving DecidableEq, Repr

/-- What the host shows as the run's output: OUT, and after a normal halt, once, LINE_TERMINATOR, which is no part of
OUT (46_output.md R218; 00_scope.md R6). -/
def shownOutput (s : State) : List Byte :=
  match s.run with
  | .halted => s.out ++ s.cfg.lineTerminator
  | .idle => s.out
  | .running => s.out
  | .faulted => s.out

/-- What the host can learn of the state (70_reset_and_hazards.md R274, R278; 60_exceptions.md R240). -/
def hostView (s : State) : HostView :=
  match s.run with
  | .idle => .pending s.out
  | .running => .pending s.out
  | .halted => .completed s.regs s.flags s.mem (shownOutput s)
  | .faulted => .failed s.cause s.info s.out

end Sys2Proof.Machine
end

