-- ==== Sys2Proof/Safety.lean ====
section
/-! DEFINITION. The terms the claims are stated in: the invariant every step keeps, what it is for two states to agree
on all but one thing (a frame), and when the next step fetches a given word or instruction. -/

namespace Sys2Proof.Machine

/-- At most one of E, G, L is 1: the four flag states that can occur (10_state.md R20). -/
def flagsReachable (f : Flags) : Bool :=
  decide (f.equal.toNat + f.greater.toNat + f.less.toNat ≤ 1)

/-- The invariant of the machine. The parameters are valid; the memory is in canonical form and inside the array; CODE_LEN
is a multiple of 4 and at most MEM_SIZE (10_state.md R21, 00_scope.md R2); at most one flag is 1 (10_state.md R20); OUT is made
of whole words (46_output.md R215); CAUSE and INFO are present exactly in FAULTED (10_state.md R22, R30). -/
abbrev State.Inv (s : State) : Prop :=
  s.cfg.Valid ∧ s.mem.wf = true ∧ Memory.within s.cfg.memSize s.mem = true ∧
    s.codeLen.toNat % 4 = 0 ∧ s.codeLen.toNat ≤ s.cfg.memSize ∧
    flagsReachable s.flags = true ∧ s.out.length % 4 = 0 ∧
    (s.cause.isSome = true ↔ s.run = .faulted) ∧ (s.info.isSome = true ↔ s.run = .faulted)

/-- `t` is `s` but for the registers: flags, every byte of memory, CODE_LEN, RUN, CAUSE, INFO, OUT and the parameters
are unchanged. -/
def SameButRegisters (s t : State) : Prop :=
  t.flags = s.flags ∧ (∀ a, t.mem.read a = s.mem.read a) ∧ t.codeLen = s.codeLen ∧ t.run = s.run ∧
    t.cause = s.cause ∧ t.info = s.info ∧ t.out = s.out ∧ t.cfg = s.cfg

/-- `t` is `s` with `v` in register `r`, and nothing else changed. -/
def OnlyRegister (r : RegIdx) (v : Word) (s t : State) : Prop :=
  t.reg r = v ∧ (∀ q, q ≠ r → t.reg q = s.reg q) ∧ SameButRegisters s t

/-- `t` is `s` but for its memory. -/
def SameButMemory (s t : State) : Prop :=
  (∀ q, t.reg q = s.reg q) ∧ t.flags = s.flags ∧ t.codeLen = s.codeLen ∧ t.run = s.run ∧
    t.cause = s.cause ∧ t.info = s.info ∧ t.out = s.out ∧ t.cfg = s.cfg

/-- `t` is `s` but for its flags. -/
def SameButFlags (s t : State) : Prop :=
  (∀ q, t.reg q = s.reg q) ∧ (∀ a, t.mem.read a = s.mem.read a) ∧ t.codeLen = s.codeLen ∧ t.run = s.run ∧
    t.cause = s.cause ∧ t.info = s.info ∧ t.out = s.out ∧ t.cfg = s.cfg

/-- `t` is `s` but for its output. -/
def SameButOutput (s t : State) : Prop :=
  (∀ q, t.reg q = s.reg q) ∧ t.flags = s.flags ∧ (∀ a, t.mem.read a = s.mem.read a) ∧ t.codeLen = s.codeLen ∧
    t.run = s.run ∧ t.cause = s.cause ∧ t.info = s.info ∧ t.cfg = s.cfg

/-- `t` is `s` in a fatal stop with this CAUSE and INFO, and nothing else changed (60_exceptions.md R239). -/
def StoppedWith (cause : Cause) (info : Word) (s t : State) : Prop :=
  t.run = .faulted ∧ t.cause = some cause ∧ t.info = some info ∧ (∀ q, t.reg q = s.reg q) ∧ t.flags = s.flags ∧
    (∀ a, t.mem.read a = s.mem.read a) ∧ t.codeLen = s.codeLen ∧ t.out = s.out ∧ t.cfg = s.cfg

/-- The CORE is running, has not reached the end of the code, and its fetch gives the word `w`. -/
def Fetches (s : State) (w : Word) : Prop :=
  s.run = .running ∧ s.pc < s.codeLen ∧ fetch s = .ok w

/-- The CORE is running and the word it fetches decodes to `i`. -/
def FetchesInstr (s : State) (i : Instr) : Prop :=
  ∃ w, Fetches s w ∧ decodeWord s.cfg.opmap w = .ok i

/-- The step of `s` gives CAUSE and INFO these values, as the table of causes says it: which access or instruction raises
it, when, and what is recorded (60_exceptions.md R231). The body of an instruction reads the registers after the advance. -/
def RaisedBy (s : State) (cause : Cause) (info : Word) : Prop :=
  match cause with
  | .divideByZero =>
    ∃ c dst a b, FetchesInstr s (.div c dst a b) ∧ conditionSet c s.flags = true ∧ (advance s).reg b = 0#32 ∧
      info = s.pc
  | .outOfBoundsLoad =>
    ∃ c dst addrReg, FetchesInstr s (.ldr c dst addrReg) ∧ conditionSet c s.flags = true ∧
      s.cfg.memSize < ((advance s).reg addrReg).toNat + 4 ∧ info = (advance s).reg addrReg
  | .outOfBoundsStore =>
    ∃ c valReg addrReg, FetchesInstr s (.str c valReg addrReg) ∧ conditionSet c s.flags = true ∧
      s.cfg.memSize < ((advance s).reg addrReg).toNat + 4 ∧ info = (advance s).reg addrReg
  | .outOfBoundsFetch =>
    s.pc < s.codeLen ∧ (s.pc.toNat % 4 = 0 ∨ s.cfg.fetchMisaligned = .byteFetch) ∧
      s.cfg.memSize < s.pc.toNat + 4 ∧ info = s.pc
  | .fetchMisaligned =>
    s.pc < s.codeLen ∧ s.pc.toNat % 4 ≠ 0 ∧ s.cfg.fetchMisaligned = .fault ∧ info = s.pc
  | .illegalOpcode =>
    ∃ w, Fetches s w ∧ (∀ k, s.cfg.opmap.number k ≠ opcodeField w) ∧ info = w ∧
      (s.cfg.illegalOpcode = .faultAlways ∨
        (s.cfg.illegalOpcode = .faultIfExecuted ∧ conditionSet (Cond.ofCode (conditionField w)) s.flags = true))

end Sys2Proof.Machine
end

