-- ==== Sys2Proof/Certificates/Slice0/Obligations.lean ====
section
/-! DEFINITION. The statements for the provers: what the numbered rules of the spec say the codec, the gate, the memory, each
instruction, the step, reset and the host's moves do. Each docstring names its rules. A statement that rests on a decision
or a derivation the spec marks as its own says so. -/

open Sys2Proof Sys2Proof.Machine

/-! ### The codec -/

/-- R72, R73, R74: the extraction functions are the slices w[28:23], w[31:29] and, for the three slots, w[22:19], w[18:15],
w[14:11]; the result of `Register` is always a valid register index. The immediate of a slot is the low 23 - 4*slot bits
(R75). -/
def Obligations.ExtractedFieldsAreWordSlices : Prop :=
  ∀ w : Word,
    (opcodeField w).toNat = w.toNat / 2 ^ 23 % 2 ^ 6 ∧ (opcodeField w).toNat ≤ 63 ∧
    (conditionField w).toNat = w.toNat / 2 ^ 29 % 2 ^ 3 ∧ (conditionField w).toNat ≤ 7 ∧
    (registerField w 0).toNat = w.toNat / 2 ^ 19 % 16 ∧
    (registerField w 1).toNat = w.toNat / 2 ^ 15 % 16 ∧
    (registerField w 2).toNat = w.toNat / 2 ^ 11 % 16 ∧
    ∀ slot, (registerField w slot).toNat = w.toNat / 2 ^ (19 - 4 * slot.val) % 16 ∧ (registerField w slot).toNat ≤ 15 ∧
      (immediateValue w slot).toNat = w.toNat % 2 ^ (23 - 4 * slot.val)

/-- Under the default OPMAP (the spec's decision D1) these words of the spec decode to these instructions: seven of table V1 of
95_test_vectors.md, the `str` of program P2 (the example of R151) and the `cmp` of S7 (the example of R190). -/
def Obligations.VectorWordsDecodeAsTabled : Prop :=
  decodeWord OpMap.default 0x00000000#32 = .ok (.ldr .always 0 0) ∧
  decodeWord OpMap.default 0x00808000#32 = .ok (.str .always 0 1) ∧
  decodeWord OpMap.default 0x2110A800#32 = .ok (.add .less 2 1 5) ∧
  decodeWord OpMap.default 0x01000FFF#32 = .ok (.add .always 0 0 1) ∧
  decodeWord OpMap.default 0x031FFFFF#32 = .ok (.mov .always 3 524287#19) ∧
  decodeWord OpMap.default 0x03900000#32 = .ok (.cmp .always 2 0) ∧
  decodeWord OpMap.default 0x24180000#32 = .ok (.jmp .less 3) ∧
  decodeWord OpMap.default 0x05100000#32 = .ok (.prn .always 2) ∧
  decodeWord OpMap.default 0x1F800000#32 = .error (.unassignedOpcode 0x1F800000#32)

/-- R71, R76, R78, R85, under the default OPMAP (the spec's decision D1): where each field of each instruction stands in its word;
every other bit is 0. -/
def Obligations.EncodedWordsAreLaidOutAsTabled : Prop :=
  ∀ (c : Cond) (d a b : RegIdx) (k : BitVec 19),
    let r1 (op : Nat) := c.code.toNat * 2 ^ 29 + op * 2 ^ 23 + d.toNat * 2 ^ 19
    let r2 (op : Nat) := r1 op + a.toNat * 2 ^ 15
    let r3 (op : Nat) := r2 op + b.toNat * 2 ^ 11
    let word (i : Instr) := (encode OpMap.default i).toNat
    word (.ldr c d a) = r2 0 ∧ word (.str c d a) = r2 1 ∧ word (.add c d a b) = r3 2 ∧ word (.sub c d a b) = r3 3 ∧
      word (.mul c d a b) = r3 4 ∧ word (.div c d a b) = r3 5 ∧ word (.mov c d k) = r1 6 + k.toNat ∧
      word (.cmp c d a) = r2 7 ∧ word (.jmp c d) = r1 8 ∧ word (.sav c d) = r1 9 ∧ word (.prn c d) = r1 10

/-- Decode and encode agree, for every injective OPMAP and every instruction with every operand (R79, R85, R86). -/
def Obligations.DecodeOfEncodeIsTheInstruction : Prop :=
  ∀ m : OpMap, m.Distinct → ∀ i : Instr, decodeWord m (encode m i) = .ok i

/-- R86: the round trip on tuples of numbers holds for the legal ones (one of the 11 opcodes, a condition in 0 to 7, register
indices in 0 to 15, a `mov` literal below 2^19) and for no other. -/
def Obligations.RoundTripHoldsExactlyForLegalOperands : Prop :=
  ∀ m : OpMap, m.Distinct → ∀ q : RawInstr, decodeRaw m (compose q) = .ok q ↔ q.legal m = true

/-- The other direction: the word of a decoded instruction is the word it was decoded from with the ignored bits cleared
(R78, R79). -/
def Obligations.EncodeOfDecodeClearsIgnoredBits : Prop :=
  ∀ (m : OpMap) (w : Word) (i : Instr), decodeWord m w = .ok i → encode m i = w &&& i.mnemonic.format.usedBits

/-- Ignored bits "may hold anything", and no other bit is ignored: two words decode alike exactly when they agree on the bits
their format looks at (R79, which the spec derives from R72 to R75). -/
def Obligations.OnlyUsedBitsDecideDecoding : Prop :=
  ∀ (m : OpMap) (w w' : Word) (k : Mnemonic), m.lookup (opcodeField w) = some k →
    (decodeWord m w' = decodeWord m w ↔ w' &&& k.format.usedBits = w &&& k.format.usedBits)

/-- R81 (decision D5): exactly the opcode values that OPMAP assigns to no mnemonic are refused, by name; under the default
OPMAP (D1) those are 11 to 63. -/
def Obligations.OnlyUnassignedOpcodesAreRefused : Prop :=
  (∀ (m : OpMap) (w : Word) (e : DecodeError),
    decodeWord m w = .error e ↔ e = .unassignedOpcode w ∧ ∀ k, m.number k ≠ opcodeField w) ∧
  ∀ w : Word, (∃ i, decodeWord OpMap.default w = .ok i) ↔ (opcodeField w).toNat ≤ 10

/-- R87: a register index that needs a fifth bit in slot 0 toggles bit 23, the opcode's lowest; the part of a literal from
bit k on toggles the word's bits from k on, whatever field they belong to. -/
def Obligations.OverwideOperandsToggleTheirNeighbours : Prop :=
  (∀ (op c i : Nat) (rest : List RawOperand), i < 16 →
    compose { opcode := op, cond := c, operands := .reg 0 (16 + i) :: rest } =
      compose { opcode := op, cond := c, operands := .reg 0 i :: rest } ^^^ 0x00800000#32) ∧
  ∀ (op c v t k : Nat) (first : List RawOperand), v < 2 ^ k →
    compose { opcode := op, cond := c, operands := first ++ [.lit (t * 2 ^ k + v)] } =
      compose { opcode := op, cond := c, operands := first ++ [.lit v] } ^^^ BitVec.ofNat 32 (t * 2 ^ k)

/-- R181: a `mov` whose source was written as a register token carries the literal K * 2^15; the hardware decodes and moves
that literal and reads no register. -/
def Obligations.MovOfARegisterTokenMovesALiteral : Prop :=
  ∀ (m : OpMap), m.Distinct → ∀ (c : Cond) (d k : RegIdx) (s : State), conditionSet c s.flags = true →
    ∃ i t, decodeWord m
        (compose { opcode := m.mov.toNat, cond := c.code.toNat, operands := [.reg 0 d.toNat, .reg 1 k.toNat] }) = .ok i ∧
      exec i s = .next t ∧ OnlyRegister d (BitVec.ofNat 32 (k.toNat * 32768)) s t

/-! ### The gate -/

/-- R125: the condition gate. Code 0 always executes; any other code iff the AND of the flag vector 4E + 2G + L with it is
nonzero, so that `ne` matches if G or L is 1. With all flags 0, as before the first `cmp`, no code but 0 matches. A body whose
gate fails does nothing. -/
def Obligations.GateIsTheAndWithTheFlagVector : Prop :=
  (∀ (c : Cond) (f : Flags), conditionSet c f = true ↔
    (c.code.toNat = 0 ∨ (4 * f.equal.toNat + 2 * f.greater.toNat + f.less.toNat) &&& c.code.toNat ≠ 0)) ∧
  (∀ f : Flags, conditionSet .notEqual f = true ↔ f.greater = true ∨ f.less = true) ∧
  (∀ c : Cond, conditionSet c { equal := false, greater := false, less := false } = true ↔ c.code.toNat = 0) ∧
  ∀ (i : Instr) (s : State), conditionSet i.cond s.flags = false → exec i s = .next s

/-- R77 (decision D6 for codes 5 to 7): when the body executes, code by code. -/
def Obligations.ConditionCodesGateAsTabled : Prop :=
  ∀ f : Flags,
    (conditionSet (Cond.ofCode 0) f = true) ∧
    (conditionSet (Cond.ofCode 1) f = true ↔ f.less = true) ∧
    (conditionSet (Cond.ofCode 2) f = true ↔ f.greater = true) ∧
    (conditionSet (Cond.ofCode 3) f = true ↔ f.greater = true ∨ f.less = true) ∧
    (conditionSet (Cond.ofCode 4) f = true ↔ f.equal = true) ∧
    (conditionSet (Cond.ofCode 5) f = true ↔ f.equal = true ∨ f.less = true) ∧
    (conditionSet (Cond.ofCode 6) f = true ↔ f.equal = true ∨ f.greater = true) ∧
    (conditionSet (Cond.ofCode 7) f = true ↔ f.equal = true ∨ f.greater = true ∨ f.less = true)

/-! ### Memory -/

/-- R44, R46 (decision D7): a read is MEM[a] + 2^8 MEM[a+1] + 2^16 MEM[a+2] + 2^24 MEM[a+3] when addr + 4 <= MEM_SIZE, the sum
not wrapping, and MemoryOutOfBounds with the kind of access otherwise. -/
def Obligations.MemReadIsLittleEndianOrOutOfBounds : Prop :=
  ∀ (kind : Access) (addr : Word) (s : State),
    (addr.toNat + 4 ≤ s.cfg.memSize → ∃ v, memRead kind addr s = .ok v ∧
      v.toNat = (s.mem.read addr.toNat).toNat + 2 ^ 8 * (s.mem.read (addr.toNat + 1)).toNat +
        2 ^ 16 * (s.mem.read (addr.toNat + 2)).toNat + 2 ^ 24 * (s.mem.read (addr.toNat + 3)).toNat) ∧
    (s.cfg.memSize < addr.toNat + 4 → memRead kind addr s = .error
      { cause := match kind with
          | .fetch => .outOfBoundsFetch
          | .load => .outOfBoundsLoad
          | .store => .outOfBoundsStore
        info := addr })

/-- R45, R46 (decision D7): a write inside memory stores the four bytes little-endian, changes no other byte and nothing else,
and keeps the canonical form; any other write stores nothing and is MemoryOutOfBounds(store). -/
def Obligations.MemWriteStoresFourBytesOrNone : Prop :=
  ∀ (addr v : Word) (s : State), s.mem.wf = true →
    (addr.toNat + 4 ≤ s.cfg.memSize → ∃ t, memWrite addr v s = .ok t ∧
      (∀ k, k < 4 → (t.mem.read (addr.toNat + k)).toNat = v.toNat / 2 ^ (8 * k) % 2 ^ 8) ∧
      (∀ x, x < addr.toNat ∨ addr.toNat + 4 ≤ x → t.mem.read x = s.mem.read x) ∧
      t.mem.wf = true ∧ SameButMemory s t) ∧
    (s.cfg.memSize < addr.toNat + 4 →
      memWrite addr v s = .error { cause := .outOfBoundsStore, info := addr })

/-- R153 (its generalisation is the spec's derivation): a word stored by `str` is what `ldr` from the same address loads, from
any later state of the same machine whose four bytes there have not changed. -/
def Obligations.LoadReturnsTheStoredWord : Prop :=
  ∀ (s t u : State) (c c' : Cond) (valReg addrReg dst addrReg' : RegIdx), s.mem.wf = true →
    conditionSet c s.flags = true → (s.reg addrReg).toNat + 4 ≤ s.cfg.memSize →
    exec (.str c valReg addrReg) s = .next t →
    u.cfg.memSize = t.cfg.memSize → u.reg addrReg' = s.reg addrReg →
    (∀ x, (s.reg addrReg).toNat ≤ x → x < (s.reg addrReg).toNat + 4 → u.mem.read x = t.mem.read x) →
    conditionSet c' u.flags = true →
    ∃ u', exec (.ldr c' dst addrReg') u = .next u' ∧ OnlyRegister dst (s.reg valReg) u u'

/-- R57 (the spec's derivation): a `str` over the word of the next instruction is seen by the very next fetch. -/
def Obligations.StoreIsSeenByTheNextFetch : Prop :=
  ∀ (s t : State) (c : Cond) (valReg addrReg : RegIdx), s.mem.wf = true → s.run = .running →
    conditionSet c s.flags = true → s.reg addrReg = s.pc → s.pc < s.codeLen → s.pc.toNat % 4 = 0 →
    s.pc.toNat + 4 ≤ s.cfg.memSize → exec (.str c valReg addrReg) s = .next t → Fetches t (s.reg valReg)

/-! ### The instructions -/

/-- R150: an executed `ldr` inside memory completes with the word at x[addrReg], of which x[addrReg] is the full byte address, in
x[dst], and changes nothing else; `dst` may be `addrReg` or 15. -/
def Obligations.LdrLoadsTheWordAndNothingElse : Prop :=
  ∀ (c : Cond) (dst addrReg : RegIdx) (s : State), conditionSet c s.flags = true →
    (s.reg addrReg).toNat + 4 ≤ s.cfg.memSize →
    ∃ t v, exec (.ldr c dst addrReg) s = .next t ∧ OnlyRegister dst v s t ∧
      v.toNat = (s.mem.read (s.reg addrReg).toNat).toNat + 2 ^ 8 * (s.mem.read ((s.reg addrReg).toNat + 1)).toNat +
        2 ^ 16 * (s.mem.read ((s.reg addrReg).toNat + 2)).toNat + 2 ^ 24 * (s.mem.read ((s.reg addrReg).toNat + 3)).toNat

/-- R151: an executed `str` inside memory completes with the four bytes of x[valReg] at x[addrReg] .. x[addrReg]+3, least
significant first, and changes nothing else. -/
def Obligations.StrStoresTheWordAndNothingElse : Prop :=
  ∀ (c : Cond) (valReg addrReg : RegIdx) (s : State), s.mem.wf = true → conditionSet c s.flags = true →
    (s.reg addrReg).toNat + 4 ≤ s.cfg.memSize →
    ∃ t, exec (.str c valReg addrReg) s = .next t ∧ SameButMemory s t ∧
      (∀ k, k < 4 → (t.mem.read ((indirectAddress addrReg s).toNat + k)).toNat =
        (s.reg valReg).toNat / 2 ^ (8 * k) % 2 ^ 8) ∧
      ∀ x, x < (indirectAddress addrReg s).toNat ∨ (indirectAddress addrReg s).toNat + 4 ≤ x →
        t.mem.read x = s.mem.read x

/-- R150, R151, R233 (the bound is decision D7; the record of the stop and all that stays D10, R239, assumption 8): an executed
`ldr` or `str` whose four bytes do not all lie inside memory stops with its cause and the address; no register is written and no
byte is stored. -/
def Obligations.DataAccessOutOfBoundsStops : Prop :=
  ∀ (c : Cond) (r addrReg : RegIdx) (s : State), conditionSet c s.flags = true →
    s.cfg.memSize < (s.reg addrReg).toNat + 4 →
    (∃ t, exec (.ldr c r addrReg) s = .next t ∧ StoppedWith .outOfBoundsLoad (s.reg addrReg) s t) ∧
    ∃ t, exec (.str c r addrReg) s = .next t ∧ StoppedWith .outOfBoundsStore (s.reg addrReg) s t

/-- R161, R162, R163, R165: an executed `add`, `sub` or `mul` completes with the sum, difference or product modulo 2^32 in x[dst]
and changes nothing else: no flag, no memory. Source and destination may be the same register. -/
def Obligations.AddSubMulWriteTheWrappedResult : Prop :=
  ∀ (c : Cond) (dst a b : RegIdx) (s : State), conditionSet c s.flags = true →
    (∃ t v, exec (.add c dst a b) s = .next t ∧ OnlyRegister dst v s t ∧
      v.toNat = ((s.reg a).toNat + (s.reg b).toNat) % 2 ^ 32) ∧
    (∃ t v, exec (.sub c dst a b) s = .next t ∧ OnlyRegister dst v s t ∧
      (v.toNat : Int) = ((s.reg a).toNat - (s.reg b).toNat : Int) % 2 ^ 32) ∧
    ∃ t v, exec (.mul c dst a b) s = .next t ∧ OnlyRegister dst v s t ∧
      v.toNat = (s.reg a).toNat * (s.reg b).toNat % 2 ^ 32

/-- R164: an executed `div` with a nonzero divisor completes with the unsigned quotient in x[dst] and changes nothing else. -/
def Obligations.DivWritesTheUnsignedQuotient : Prop :=
  ∀ (c : Cond) (dst a b : RegIdx) (s : State), conditionSet c s.flags = true → s.reg b ≠ 0 →
    ∃ t v, exec (.div c dst a b) s = .next t ∧ OnlyRegister dst v s t ∧ v.toNat = (s.reg a).toNat / (s.reg b).toNat

/-- R164, R232 (the record of the stop and all that stays are decision D10, R239, assumption 8): an executed `div` whose divisor
is 0 stops with DivideByZero and the address of the `div`, x[15] - 4, whatever the dividend; x[dst] is not written. -/
def Obligations.DivByZeroStops : Prop :=
  ∀ (c : Cond) (dst a b : RegIdx) (s : State), conditionSet c s.flags = true → s.reg b = 0 →
    ∃ t, exec (.div c dst a b) s = .next t ∧ StoppedWith .divideByZero (s.pc - 4) s t

/-- R180: an executed `mov` completes with the zero-extended literal in x[dst], whatever any register holds, and changes
nothing else. -/
def Obligations.MovWritesTheLiteral : Prop :=
  ∀ (c : Cond) (dst : RegIdx) (imm19 : BitVec 19) (s : State), conditionSet c s.flags = true →
    ∃ t, exec (.mov c dst imm19) s = .next t ∧ OnlyRegister dst (BitVec.ofNat 32 imm19.toNat) s t

/-- R190, R191: an executed `cmp` completes with E, G, L as the unsigned comparison of x[a] with x[b] says, exactly one of them
1, and changes nothing else: no register, no memory. -/
def Obligations.CmpSetsExactlyOneFlag : Prop :=
  ∀ (c : Cond) (a b : RegIdx) (s : State), conditionSet c s.flags = true →
    ∃ t, exec (.cmp c a b) s = .next t ∧ SameButFlags s t ∧
      (t.flags.equal = true ↔ (s.reg a).toNat = (s.reg b).toNat) ∧
      (t.flags.greater = true ↔ (s.reg a).toNat > (s.reg b).toNat) ∧
      (t.flags.less = true ↔ (s.reg a).toNat < (s.reg b).toNat) ∧
      t.flags.equal.toNat + t.flags.greater.toNat + t.flags.less.toNat = 1

/-- R192 (the spec's derivation): after an executed `cmp` each condition is the unsigned relation it is named after, between the
values compared; `ne` coincides with inequality, and condition 7 always matches. -/
def Obligations.ConditionsAfterCompareAreTheRelations : Prop :=
  ∀ (c : Cond) (a b : RegIdx) (s : State), conditionSet c s.flags = true →
    ∃ t, exec (.cmp c a b) s = .next t ∧
      (conditionSet .equal t.flags = true ↔ (s.reg a).toNat = (s.reg b).toNat) ∧
      (conditionSet .greater t.flags = true ↔ (s.reg a).toNat > (s.reg b).toNat) ∧
      (conditionSet .less t.flags = true ↔ (s.reg a).toNat < (s.reg b).toNat) ∧
      (conditionSet .notEqual t.flags = true ↔ (s.reg a).toNat ≠ (s.reg b).toNat) ∧
      (conditionSet .lessEqual t.flags = true ↔ (s.reg a).toNat ≤ (s.reg b).toNat) ∧
      (conditionSet .greaterEqual t.flags = true ↔ (s.reg a).toNat ≥ (s.reg b).toNat) ∧
      conditionSet .anyFlag t.flags = true

/-- R200: an executed `jmp` completes with x[dst] in x[15], aligned or not, inside the code or not, and changes nothing else. -/
def Obligations.JmpMovesTheRegisterToThePc : Prop :=
  ∀ (c : Cond) (target : RegIdx) (s : State), conditionSet c s.flags = true →
    ∃ t, exec (.jmp c target) s = .next t ∧ OnlyRegister RegIdx.pc (s.reg target) s t

/-- R201: an executed `sav` completes with x[15] as the body sees it in x[dst], and changes nothing else; `sav r15` changes
nothing at all. -/
def Obligations.SavCopiesThePc : Prop :=
  ∀ (c : Cond) (s : State), conditionSet c s.flags = true →
    (∀ dst : RegIdx, ∃ t, exec (.sav c dst) s = .next t ∧ OnlyRegister dst s.pc s t) ∧
    exec (.sav c RegIdx.pc) s = .next s

/-- R215 (the order of the bytes is decision D8, R216): an executed `prn` completes with the four bytes of x[src] appended to OUT,
least significant first, and changes nothing else. -/
def Obligations.PrnAppendsFourBytes : Prop :=
  ∀ (c : Cond) (src : RegIdx) (s : State), conditionSet c s.flags = true →
    ∃ t, exec (.prn c src) s = .next t ∧ SameButOutput s t ∧
      t.out = s.out ++ [BitVec.ofNat 8 (s.reg src).toNat, BitVec.ofNat 8 ((s.reg src).toNat / 2 ^ 8),
        BitVec.ofNat 8 ((s.reg src).toNat / 2 ^ 16), BitVec.ofNat 8 ((s.reg src).toNat / 2 ^ 24)]

/-- R216 (decision D8): what `prn rS` appends to OUT is what `str rS rA` stores at x[A] .. x[A]+3, in the order of the addresses. -/
def Obligations.PrnEmitsTheBytesStrStores : Prop :=
  ∀ (c : Cond) (r addrReg : RegIdx) (s t u : State), s.mem.wf = true → conditionSet c s.flags = true →
    (s.reg addrReg).toNat + 4 ≤ s.cfg.memSize →
    exec (.prn c r) s = .next t → exec (.str c r addrReg) s = .next u →
    t.out = s.out ++ (List.range 4).map fun k => u.mem.read ((s.reg addrReg).toNat + k)

/-! ### The step -/

/-- R122 to R124, R129: a running CORE below the end of the code, whose fetched word decodes to `i`, advances x[15] by 4 and runs
`i` on the advanced state; the advance changes nothing but x[15]. -/
def Obligations.StepRunsTheDecodedInstruction : Prop :=
  ∀ (s : State) (i : Instr), FetchesInstr s i →
    step s = exec i (advance s) ∧ OnlyRegister RegIdx.pc (s.pc + 4) s (advance s)

/-- R121: the halting test comes before anything else. At x[15] >= CODE_LEN, aligned or not, inside memory or not, the step
makes RUN = HALTED and changes nothing else, and no further step happens; with CODE_LEN = 0 the run halts at once. -/
def Obligations.StepHaltsAtTheEndOfTheCode : Prop :=
  ∀ s : State, s.run = .running →
    (s.codeLen ≤ s.pc → ∃ t, step s = .next t ∧ t = { s with run := .halted } ∧ ∀ u, step t ≠ .next u) ∧
    (s.codeLen = 0 → step s = .next { s with run := .halted }) ∧
    (s.pc < s.codeLen → ∀ t, step s = .next t → t.run ≠ .halted)

/-- R127: a skipped instruction, and under `fault_if_executed` a skipped word with an unassigned opcode, changes nothing but
x[15], which is advanced by 4. -/
def Obligations.SkippedWordOnlyAdvancesThePc : Prop :=
  ∀ (s : State) (w : Word), Fetches s w → conditionSet (Cond.ofCode (conditionField w)) s.flags = false →
    ((∃ k, s.cfg.opmap.number k = opcodeField w) ∨ s.cfg.illegalOpcode = .faultIfExecuted) →
    ∃ t, step s = .next t ∧ OnlyRegister RegIdx.pc (s.pc + 4) s t

/-- R48, R235 (decision D4): a program counter below CODE_LEN that is no multiple of 4. Under `fault` the step stops with
FetchMisaligned and the program counter, the record of the stop and all that stays being decision D10 (R239, assumption 8);
under `byte_fetch` the word at that byte offset is fetched, if it lies inside memory. -/
def Obligations.MisalignedFetchFollowsItsParameter : Prop :=
  ∀ s : State, s.run = .running → s.pc < s.codeLen → s.pc.toNat % 4 ≠ 0 →
    (s.cfg.fetchMisaligned = .fault → ∃ t, step s = .next t ∧ StoppedWith .fetchMisaligned s.pc s t) ∧
    (s.cfg.fetchMisaligned = .byteFetch → s.pc.toNat + 4 ≤ s.cfg.memSize → Fetches s (s.mem.readWord s.pc.toNat))

/-- R231, R234 (the spec's derivation): a fetch that is made and whose four bytes do not all lie inside memory stops with
MemoryOutOfBounds(fetch) and the program counter. The record of the stop and that nothing else changes are decision D10 (R231,
R239, assumption 8). -/
def Obligations.FetchOutOfBoundsStops : Prop :=
  ∀ s : State, s.run = .running → s.pc < s.codeLen →
    (s.pc.toNat % 4 = 0 ∨ s.cfg.fetchMisaligned = .byteFetch) → s.cfg.memSize < s.pc.toNat + 4 →
    ∃ t, step s = .next t ∧ StoppedWith .outOfBoundsFetch s.pc s t

/-- R5, R81, R128, R236 (decision D5): a fetched word whose opcode is assigned to no mnemonic, under each setting of
ILLEGAL_OPCODE: stopped at decode with x[15] not advanced; stopped at execute, after the advance, if the gate passes, and
otherwise only advanced over; only advanced over. The record of a stop and that nothing else changes at it are decision D10
(R239, assumption 8). -/
def Obligations.UnassignedOpcodeFollowsItsParameter : Prop :=
  ∀ (s : State) (w : Word), Fetches s w → (∀ k, s.cfg.opmap.number k ≠ opcodeField w) →
    (s.cfg.illegalOpcode = .faultAlways → ∃ t, step s = .next t ∧ StoppedWith .illegalOpcode w s t) ∧
    (s.cfg.illegalOpcode = .faultIfExecuted → conditionSet (Cond.ofCode (conditionField w)) s.flags = true →
      ∃ t, step s = .next t ∧ StoppedWith .illegalOpcode w (advance s) t) ∧
    (s.cfg.illegalOpcode = .faultIfExecuted → conditionSet (Cond.ofCode (conditionField w)) s.flags = false →
      ∃ t, step s = .next t ∧ OnlyRegister RegIdx.pc (s.pc + 4) s t) ∧
    (s.cfg.illegalOpcode = .nop → ∃ t, step s = .next t ∧ OnlyRegister RegIdx.pc (s.pc + 4) s t)

/-- R202 (the spec's derivation): the step of an executed instruction whose destination is register 15 transfers control: the value
written replaces the advanced program counter. A source that is r15 reads as the address of the next instruction, so that
`add r15 r15 rB` and `sub r15 r15 rB` jump relative to it, and `sav r15` goes on. -/
def Obligations.WritesOfRegisterFifteenTransferControl : Prop :=
  ∀ (s : State) (c : Cond) (a b : RegIdx) (k : BitVec 19), conditionSet c s.flags = true →
    (advance s).reg RegIdx.pc = s.pc + 4 ∧
    (FetchesInstr s (.add c RegIdx.pc a b) →
      ∃ t, step s = .next t ∧ OnlyRegister RegIdx.pc ((advance s).reg a + (advance s).reg b) s t) ∧
    (FetchesInstr s (.sub c RegIdx.pc a b) →
      ∃ t, step s = .next t ∧ OnlyRegister RegIdx.pc ((advance s).reg a - (advance s).reg b) s t) ∧
    (FetchesInstr s (.mul c RegIdx.pc a b) →
      ∃ t, step s = .next t ∧ OnlyRegister RegIdx.pc ((advance s).reg a * (advance s).reg b) s t) ∧
    (FetchesInstr s (.div c RegIdx.pc a b) → (advance s).reg b ≠ 0 →
      ∃ t, step s = .next t ∧ OnlyRegister RegIdx.pc ((advance s).reg a / (advance s).reg b) s t) ∧
    (FetchesInstr s (.ldr c RegIdx.pc a) → ((advance s).reg a).toNat + 4 ≤ s.cfg.memSize →
      ∃ t, step s = .next t ∧ OnlyRegister RegIdx.pc (s.mem.readWord ((advance s).reg a).toNat) s t) ∧
    (FetchesInstr s (.mov c RegIdx.pc k) →
      ∃ t, step s = .next t ∧ OnlyRegister RegIdx.pc (BitVec.ofNat 32 k.toNat) s t) ∧
    (FetchesInstr s (.sav c RegIdx.pc) → ∃ t, step s = .next t ∧ OnlyRegister RegIdx.pc (s.pc + 4) s t)

/-- R129, R130, R239: a running CORE always has a next state, and no other run state has one; what `step` answers there is the
model's own name for it (assumption 4). -/
def Obligations.ExactlyARunningCoreSteps : Prop :=
  ∀ s : State, (s.run = .running ↔ ∃ t, step s = .next t) ∧
    (s.run = .idle → step s = .fault .idle) ∧ (s.run = .halted → step s = .fault .halted) ∧
    (s.run = .faulted → step s = .fault .faulted)

/-- R231, R238 (the records are decision D10, assumption 8, the conditions also D4, D5 and D7; the order is the spec's
derivation): from a running state, the step ends in a fatal stop with a given cause and information exactly when the table of
causes says so. -/
def Obligations.StepStopsExactlyAsTheCauseTableSays : Prop :=
  ∀ (s : State) (cause : Cause) (info : Word), s.run = .running →
    ((∃ t, step s = .next t ∧ t.run = .faulted ∧ t.cause = some cause ∧ t.info = some info) ↔ RaisedBy s cause info)

/-- R239 (decision D10, assumption 8): fatal stops are precise. The step that ends in one has changed RUN, CAUSE, INFO and, at
an execute-phase exception, x[15], which it has advanced by 4; no other register, no byte of memory, no flag, no output, nothing
else. -/
def Obligations.FatalStopsArePrecise : Prop :=
  ∀ s t : State, step s = .next t → t.run = .faulted →
    ∃ cause info, t.cause = some cause ∧ t.info = some info ∧
      (∀ q, q ≠ RegIdx.pc → t.reg q = s.reg q) ∧
      t.pc = (match cause with
        | .divideByZero => s.pc + 4
        | .outOfBoundsLoad => s.pc + 4
        | .outOfBoundsStore => s.pc + 4
        | .outOfBoundsFetch => s.pc
        | .fetchMisaligned => s.pc
        | .illegalOpcode => if s.cfg.illegalOpcode = .faultAlways then s.pc else s.pc + 4) ∧
      t.flags = s.flags ∧ (∀ a, t.mem.read a = s.mem.read a) ∧ t.codeLen = s.codeLen ∧ t.out = s.out ∧ t.cfg = s.cfg

/-- R19: the flags are written by executed `cmp` instructions only and read by the gate only. A step that changes them ran a `cmp`;
of the host's moves only RESET does; and under other flags under which the gate of the fetched word, if there is one,
answers alike, the step does the same and leaves them as they are, unless it runs a `cmp`, which overwrites them. -/
def Obligations.FlagsWrittenOnlyByCmpAndReadOnlyByTheGate : Prop :=
  (∀ s t : State, step s = .next t → t.flags ≠ s.flags →
    ∃ c a b, FetchesInstr s (.cmp c a b) ∧ conditionSet c s.flags = true) ∧
  (∀ (move : HostMove) (s t : State), move ≠ .reset → hostStep move s = .next t → t.flags = s.flags) ∧
  ∀ (s t : State) (f : Flags), step s = .next t →
    (∀ w, Fetches s w → conditionSet (Cond.ofCode (conditionField w)) f =
      conditionSet (Cond.ofCode (conditionField w)) s.flags) →
    ((∃ c a b, FetchesInstr s (.cmp c a b) ∧ conditionSet c s.flags = true) → step { s with flags := f } = .next t) ∧
    ((¬ ∃ c a b, FetchesInstr s (.cmp c a b) ∧ conditionSet c s.flags = true) →
      step { s with flags := f } = .next { t with flags := f })

/-- R23: OUT is append-only, only an executed `prn` appends, and nothing in the CORE reads it: with any other bytes in OUT the step
does the same and appends the same. Of the host's moves only RESET, since which OUT counts, changes it. -/
def Obligations.OutputIsAppendOnlyAndNeverRead : Prop :=
  (∀ s : State, (hostReset s).out = []) ∧
  (∀ (move : HostMove) (s t : State), move ≠ .reset → hostStep move s = .next t → t.out = s.out) ∧
  ∀ s t : State, step s = .next t →
    ∃ bytes, t.out = s.out ++ bytes ∧
      (bytes ≠ [] → ∃ c src, FetchesInstr s (.prn c src) ∧ conditionSet c s.flags = true) ∧
      ∀ before, step { s with out := before } = .next { t with out := before ++ bytes }

/-- R42, R151: only an executed `str` changes memory during a run, and only the four bytes at the address its register holds. -/
def Obligations.MemoryWrittenOnlyByStr : Prop :=
  ∀ (s t : State) (x : Nat), s.mem.wf = true → step s = .next t → t.mem.read x ≠ s.mem.read x →
    ∃ c valReg addrReg, FetchesInstr s (.str c valReg addrReg) ∧ conditionSet c s.flags = true ∧
      ((advance s).reg addrReg).toNat ≤ x ∧ x < ((advance s).reg addrReg).toNat + 4 ∧
      ((advance s).reg addrReg).toNat + 4 ≤ s.cfg.memSize

/-- R21: CODE_LEN is written by the host's LOAD, which makes it 4 * word_count, a multiple of 4, and by nothing else but RESET,
which makes it 0 (R30, R270, decision D3, assumption 2); it is read by the halting test alone: a step on the same side of that
test is the same whatever CODE_LEN holds. -/
def Obligations.CodeLengthIsLoadsAndTheHaltingTests : Prop :=
  (∀ s : State, (hostReset s).codeLen = 0) ∧
  (∀ s t : State, step s = .next t → t.codeLen = s.codeLen) ∧
  (∀ s t : State, hostRun s = .next t → t.codeLen = s.codeLen) ∧
  (∀ (s t : State) (words : List Word), s.cfg.Valid → hostLoad words s = .next t →
    t.codeLen.toNat = 4 * words.length ∧ t.codeLen.toNat % 4 = 0) ∧
  ∀ (s t : State) (n : Word), step s = .next t → (s.pc < n ↔ s.pc < s.codeLen) →
    step { s with codeLen := n } = .next { t with codeLen := n }

/-- R17 (the spec's derivation): the advance never wraps: after it the program counter is at most CODE_LEN + 3. -/
def Obligations.AdvanceNeverWraps : Prop :=
  ∀ s : State, s.Inv → s.pc < s.codeLen →
    (advance s).pc.toNat = s.pc.toNat + 4 ∧ (advance s).pc.toNat ≤ s.codeLen.toNat + 3

/-- R122, R234 (the spec's derivation): an aligned program counter below CODE_LEN has its four bytes inside the code region and
inside memory, so that its fetch always gives a word. -/
def Obligations.AlignedFetchNeverLeavesTheCode : Prop :=
  ∀ s : State, s.Inv → s.run = .running → s.pc < s.codeLen → s.pc.toNat % 4 = 0 →
    s.pc.toNat + 4 ≤ s.codeLen.toNat ∧ s.codeLen.toNat ≤ s.cfg.memSize ∧ Fetches s (s.mem.readWord s.pc.toNat)

/-- Every step keeps the invariant: valid parameters, a memory in canonical form inside the array, CODE_LEN a multiple of 4 and at
most MEM_SIZE, at most one flag 1, OUT made of whole words, CAUSE and INFO present exactly in FAULTED (R2, R20, R21, R22, R215,
R239). It holds for every state with the invariant, reached or not. -/
def Obligations.StepKeepsTheStateInvariant : Prop :=
  ∀ s t : State, s.Inv → step s = .next t → t.Inv

/-! ### Reset and the host -/

/-- The state after reset has the invariant. -/
def Obligations.ResetMeetsTheStateInvariant : Prop :=
  State.reset.Inv

/-- Every move of the host keeps the invariant; for RESET, RESET_FLAGS must be a flag state that can occur (R20). -/
def Obligations.HostMovesKeepTheStateInvariant : Prop :=
  ∀ (move : HostMove) (s t : State), s.Inv → flagsReachable s.cfg.resetFlags = true → hostStep move s = .next t → t.Inv

/-- R30 (decision D3: the values are the spec's own choice): the state after reset with the default parameters. -/
def Obligations.ResetValuesAreAsTabled : Prop :=
  (∀ r, State.reset.reg r = 0) ∧ State.reset.flags = { equal := false, greater := false, less := false } ∧
    (∀ a, State.reset.mem.read a = 0) ∧ State.reset.codeLen = 0 ∧ State.reset.run = .idle ∧
    State.reset.cause = none ∧ State.reset.info = none ∧ State.reset.out = [] ∧ State.reset.cfg.memSize = 2048

/-- R32, R270 (decision D3): RESET, from any state, under any reset values the parameters name: x[15] is 0 whatever they are, and
nothing of the old state but the parameters is left. -/
def Obligations.ResetForgetsTheOldState : Prop :=
  ∀ s : State, ∃ t, hostStep .reset s = .next t ∧ t.pc = 0 ∧ (∀ r : RegIdx, ∀ h : r.toNat < 15,
      t.reg r = s.cfg.resetRegs[r.toNat]) ∧ t.flags = s.cfg.resetFlags ∧ t.mem = s.cfg.resetMem ∧ t.codeLen = 0 ∧
      t.run = .idle ∧ t.cause = none ∧ t.info = none ∧ t.out = [] ∧ t.cfg = s.cfg

/-- R271 (the refusal is decision D11): LOAD. Allowed only in IDLE, refused when 4*n > MEM_SIZE; else word i stands at bytes 4*i ..
4*i+3, little-endian, CODE_LEN is 4*n, and nothing else has changed. -/
def Obligations.LoadCopiesTheWordsOrRefuses : Prop :=
  ∀ (s : State) (words : List Word), s.mem.wf = true →
    (s.run ≠ .idle → hostLoad words s = .refused .loadNotIdle) ∧
    (s.run = .idle → s.cfg.memSize < 4 * words.length → hostLoad words s = .refused .loadTooLong) ∧
    (s.run = .idle → 4 * words.length ≤ s.cfg.memSize → ∃ t, hostLoad words s = .next t ∧
      (∀ i, ∀ h : i < words.length, ∀ k, k < 4 →
        (t.mem.read (4 * i + k)).toNat = words[i].toNat / 2 ^ (8 * k) % 2 ^ 8) ∧
      (∀ x, 4 * words.length ≤ x → t.mem.read x = s.mem.read x) ∧
      t.codeLen = BitVec.ofNat 32 (4 * words.length) ∧ (∀ q, t.reg q = s.reg q) ∧ t.flags = s.flags ∧ t.run = s.run ∧
      t.cause = s.cause ∧ t.info = s.info ∧ t.out = s.out ∧ t.cfg = s.cfg)

/-- R272, R278: RUN. Allowed only in IDLE, it makes RUN = RUNNING and changes nothing else. -/
def Obligations.RunStartsOnlyFromIdle : Prop :=
  ∀ s : State, (s.run = .idle → hostRun s = .next { s with run := .running }) ∧
    (s.run ≠ .idle → hostRun s = .refused .runNotIdle)

/-- R70, R271, R272: after LOAD and RUN, with the program counter at 4*i, the word that is fetched is word i of those loaded. -/
def Obligations.LoadedWordsAreFetched : Prop :=
  ∀ (s t u : State) (words : List Word) (i : Nat), s.cfg.Valid → s.mem.wf = true →
    hostLoad words s = .next t → hostRun t = .next u →
    ∀ h : i < words.length, Fetches (u.setPc (BitVec.ofNat 32 (4 * i))) words[i]

/-- The model's own operation (assumptions 5 and 6), standing for LOAD and RUN of R271 and R272: from a machine in any run
state, the next step of `withFetchWord` fetches exactly the word placed. -/
def Obligations.WithFetchWordIsFetchedNext : Prop :=
  ∀ (s : State) (nbits w : Nat), s.cfg.Valid → s.mem.wf = true →
    Fetches (s.withFetchWord nbits w) (BitVec.ofNat 32 (w % 2 ^ nbits))

/-- R218, R278 (decision D9): the host shows OUT, with LINE_TERMINATOR after it once the run has HALTED and never after a fatal
stop; registers, flags and memory are shown only after a normal halt, CAUSE and INFO only after a fatal stop. -/
def Obligations.HostSeesTheResultOnlyAtTheEnd : Prop :=
  ∀ s : State,
    (s.run = .halted → hostView s = .completed s.regs s.flags s.mem (s.out ++ s.cfg.lineTerminator)) ∧
    (s.run = .faulted → hostView s = .failed s.cause s.info s.out) ∧
    (s.run = .idle ∨ s.run = .running → hostView s = .pending s.out)

/-! ### The assembler -/

/-- R91 to R98, R101 (decisions D12, D13): the well-formed line of an instruction assembles to the word of that instruction,
whatever the number of lines; every condition but 7 has a spelling. -/
def Obligations.DisassemblyAssemblesBack : Prop :=
  ∀ (m : OpMap) (lines : Nat) (i : Instr),
    (i.cond ≠ .anyFlag ↔ ∃ tokens, Assembler.disassemble i = some tokens) ∧
    ∀ tokens, Assembler.disassemble i = some tokens → Assembler.assembleLine m lines tokens = .ok (encode m i)
end

