-- ==== Sys2Proof/Laws/Codec.lean ====
section
/-! SUPPORT. The laws of the codec: a composed word whose operands fit is its fields laid side by side, and what each
extraction function reads from such a word (30_encoding.md R71 to R75, R85). -/

namespace Sys2Proof

/-- A word laid out as condition, opcode, slot 0 and the low 19 bits (30_encoding.md R71). -/
def layout (c : BitVec 3) (op : BitVec 6) (d : RegIdx) (low : BitVec 19) : Word :=
  c ++ op ++ d ++ low

theorem getLsbD_layout (c : BitVec 3) (op : BitVec 6) (d : RegIdx) (low : BitVec 19) (j : Nat) :
    (layout c op d low).getLsbD j =
      if j < 19 then low.getLsbD j
      else if j < 23 then d.getLsbD (j - 19)
      else if j < 29 then op.getLsbD (j - 23)
      else c.getLsbD (j - 29) := by
  simp only [layout, BitVec.getLsbD_append]
  have e1 : (j - 19 < 4) ↔ j < 23 ∨ j < 19 := by omega
  by_cases h1 : j < 19
  · simp [h1]
  · by_cases h2 : j < 23
    · have : j - 19 < 4 := by omega
      simp [h1, h2, this]
    · have h2' : ¬ j - 19 < 4 := by omega
      by_cases h3 : j < 29
      · have : j - 19 - 4 < 6 := by omega
        simp [h1, h2, h2', h3, this]; congr 1
      · have : ¬ j - 19 - 4 < 6 := by omega
        simp [h1, h2, h2', h3, this]; congr 1

/-! ### What the extraction functions read from such a word -/

@[simp] theorem opcodeField_layout (c : BitVec 3) (op : BitVec 6) (d : RegIdx) (low : BitVec 19) :
    opcodeField (layout c op d low) = op := by
  apply BitVec.eq_of_getLsbD_eq
  intro i hi
  have h1 : ¬ 23 + i < 19 := by omega
  have h3 : 23 + i < 29 := by omega
  simp only [opcodeField, BitVec.getLsbD_extractLsb', getLsbD_layout]
  simp [hi, h1, h3]

@[simp] theorem conditionField_layout (c : BitVec 3) (op : BitVec 6) (d : RegIdx) (low : BitVec 19) :
    conditionField (layout c op d low) = c := by
  apply BitVec.eq_of_getLsbD_eq
  intro i hi
  have h1 : ¬ 29 + i < 19 := by omega
  have h2 : ¬ 29 + i < 23 := by omega
  simp only [conditionField, BitVec.getLsbD_extractLsb', getLsbD_layout]
  simp [hi, h1, h2]

@[simp] theorem registerField_zero_layout (c : BitVec 3) (op : BitVec 6) (d : RegIdx) (low : BitVec 19) :
    registerField (layout c op d low) 0 = d := by
  apply BitVec.eq_of_getLsbD_eq
  intro i hi
  have h2 : 19 + i < 23 := by omega
  simp only [registerField, BitVec.getLsbD_extractLsb', getLsbD_layout]
  simp [hi, h2]

@[simp] theorem registerField_one_layout (c : BitVec 3) (op : BitVec 6) (d : RegIdx) (low : BitVec 19) :
    registerField (layout c op d low) 1 = low.extractLsb' 15 4 := by
  apply BitVec.eq_of_getLsbD_eq
  intro i hi
  have h1 : 15 + i < 19 := by omega
  simp only [registerField, BitVec.getLsbD_extractLsb', getLsbD_layout]
  simp [hi, h1]

@[simp] theorem registerField_two_layout (c : BitVec 3) (op : BitVec 6) (d : RegIdx) (low : BitVec 19) :
    registerField (layout c op d low) 2 = low.extractLsb' 11 4 := by
  apply BitVec.eq_of_getLsbD_eq
  intro i hi
  have h1 : 11 + i < 19 := by omega
  simp only [registerField, BitVec.getLsbD_extractLsb', getLsbD_layout]
  simp [hi, h1]

@[simp] theorem immediateValue_layout (c : BitVec 3) (op : BitVec 6) (d : RegIdx) (low : BitVec 19) :
    immediateValue (layout c op d low) 1 = low := by
  apply BitVec.eq_of_getLsbD_eq
  intro i hi
  have h1 : i < 19 := hi
  simp only [immediateValue, BitVec.getLsbD_extractLsb', getLsbD_layout]
  simp [h1]

/-- Every word is its fields laid side by side. -/
theorem layout_fields (w : Word) :
    layout (conditionField w) (opcodeField w) (registerField w 0) (w.extractLsb' 0 19) = w := by
  apply BitVec.eq_of_getLsbD_eq
  intro j hj
  rw [getLsbD_layout]
  simp only [conditionField, opcodeField, registerField, BitVec.getLsbD_extractLsb']
  by_cases h1 : j < 19
  · simp [h1]
  · by_cases h2 : j < 23
    · have e : j - 19 < 4 := by omega
      simp [h1, h2, e]; congr 1; omega
    · by_cases h3 : j < 29
      · have e : j - 23 < 6 := by omega
        simp [h1, h2, h3, e]; congr 1; omega
      · have e : j - 29 < 3 := by omega
        simp [h1, h2, h3, e]; congr 1; omega

/-! ### The word of a raw instruction whose operands fit -/

/-- The low 19 bits a format's remaining operands make. -/
def lowR3 (a b : RegIdx) : BitVec 19 := a ++ b ++ 0#11

def lowR2 (a : RegIdx) : BitVec 19 := a ++ 0#15

theorem getLsbD_lowR3 (a b : RegIdx) (j : Nat) :
    (lowR3 a b).getLsbD j =
      if j < 11 then false else if j < 15 then b.getLsbD (j - 11) else a.getLsbD (j - 15) := by
  simp only [lowR3, BitVec.getLsbD_append]
  by_cases h1 : j < 11
  · simp [h1]
  · by_cases h2 : j < 15
    · have : j - 11 < 4 := by omega
      simp [h1, h2, this]
    · have : ¬ j - 11 < 4 := by omega
      simp [h1, h2, this]; congr 1

theorem getLsbD_lowR2 (a : RegIdx) (j : Nat) :
    (lowR2 a).getLsbD j = if j < 15 then false else a.getLsbD (j - 15) := by
  simp only [lowR2, BitVec.getLsbD_append]
  by_cases h1 : j < 15 <;> simp [h1]

@[simp] theorem lowR3_first (a b : RegIdx) : (lowR3 a b).extractLsb' 15 4 = a := by
  apply BitVec.eq_of_getLsbD_eq
  intro i hi
  have h : ¬ 15 + i < 11 := by omega
  rw [BitVec.getLsbD_extractLsb', getLsbD_lowR3]
  simp [hi, h]

@[simp] theorem lowR3_second (a b : RegIdx) : (lowR3 a b).extractLsb' 11 4 = b := by
  apply BitVec.eq_of_getLsbD_eq
  intro i hi
  have h : 11 + i < 15 := by omega
  rw [BitVec.getLsbD_extractLsb', getLsbD_lowR3]
  simp [hi, h]

@[simp] theorem lowR2_first (a : RegIdx) : (lowR2 a).extractLsb' 15 4 = a := by
  apply BitVec.eq_of_getLsbD_eq
  intro i hi
  rw [BitVec.getLsbD_extractLsb', getLsbD_lowR2]
  simp [hi]

@[simp] theorem RawOperand.bits_reg (slot : Fin 3) (i : Nat) :
    (RawOperand.reg slot i).bits = i * 2 ^ (19 - 4 * slot.val) := rfl

@[simp] theorem RawOperand.bits_lit (v : Nat) : (RawOperand.lit v).bits = v := rfl

/-- The bits of opcode, condition and slot 0, which every format has, followed by the bits of the other operands. -/
theorem compose_cons (c : BitVec 3) (op : BitVec 6) (d : RegIdx) (rest : List RawOperand) (low : BitVec 19)
    (hlow : ∀ start : Nat, ∀ j < 32, (rest.foldl (fun w o => w ^^^ o.bits) start).testBit j =
      (start.testBit j ^^ low.getLsbD j)) :
    compose { opcode := op.toNat, cond := c.toNat, operands := .reg 0 d.toNat :: rest } = layout c op d low := by
  apply BitVec.eq_of_getLsbD_eq
  intro j hj
  rw [getLsbD_layout]
  simp only [compose, List.foldl_cons, BitVec.getLsbD_ofNat]
  rw [hlow _ j hj]
  simp only [RawOperand.bits_reg, Nat.testBit_xor, Nat.testBit_mul_two_pow, BitVec.testBit_toNat]
  by_cases h1 : j < 19
  · have a1 : ¬ 23 ≤ j := by omega
    have a2 : ¬ 29 ≤ j := by omega
    have a3 : ¬ 19 ≤ j := by omega
    simp [hj, h1, a1, a2, a3]
  · have a3 : 19 ≤ j := by omega
    by_cases h2 : j < 23
    · have a1 : ¬ 23 ≤ j := by omega
      have a2 : ¬ 29 ≤ j := by omega
      simp [hj, h1, h2, a1, a2, a3]
    · have a1 : 23 ≤ j := by omega
      have dz : d.getLsbD (j - 19) = false := BitVec.getLsbD_of_ge d _ (by omega)
      by_cases h3 : j < 29
      · have a2 : ¬ 29 ≤ j := by omega
        simp [hj, h1, h2, h3, a1, a2, a3, dz]
      · have a2 : 29 ≤ j := by omega
        have oz : op.getLsbD (j - 23) = false := BitVec.getLsbD_of_ge op _ (by omega)
        simp [hj, h1, h2, h3, a1, a2, a3, dz, oz]

theorem compose_r3 (c : BitVec 3) (op : BitVec 6) (d a b : RegIdx) :
    compose { opcode := op.toNat, cond := c.toNat, operands := [.reg 0 d.toNat, .reg 1 a.toNat, .reg 2 b.toNat] } =
      layout c op d (lowR3 a b) := by
  refine compose_cons c op d _ _ fun start j _ => ?_
  simp only [List.foldl_cons, List.foldl_nil, RawOperand.bits_reg, Nat.testBit_xor, Nat.testBit_mul_two_pow,
    BitVec.testBit_toNat, getLsbD_lowR3]
  by_cases h1 : j < 11
  · have a1 : ¬ 11 ≤ j := by omega
    have a2 : ¬ 15 ≤ j := by omega
    simp [h1, a1, a2]
  · have a1 : 11 ≤ j := by omega
    by_cases h2 : j < 15
    · have a2 : ¬ 15 ≤ j := by omega
      simp [h1, h2, a1, a2]
    · have a2 : 15 ≤ j := by omega
      have bz : b.getLsbD (j - 11) = false := BitVec.getLsbD_of_ge b _ (by omega)
      simp [h1, h2, a1, a2, bz]

theorem compose_r2 (c : BitVec 3) (op : BitVec 6) (d a : RegIdx) :
    compose { opcode := op.toNat, cond := c.toNat, operands := [.reg 0 d.toNat, .reg 1 a.toNat] } =
      layout c op d (lowR2 a) := by
  refine compose_cons c op d _ _ fun start j _ => ?_
  simp only [List.foldl_cons, List.foldl_nil, RawOperand.bits_reg, Nat.testBit_xor, Nat.testBit_mul_two_pow,
    BitVec.testBit_toNat, getLsbD_lowR2]
  by_cases h1 : j < 15
  · have a1 : ¬ 15 ≤ j := by omega
    simp [h1, a1]
  · have a1 : 15 ≤ j := by omega
    simp [h1, a1]

theorem compose_r1 (c : BitVec 3) (op : BitVec 6) (d : RegIdx) :
    compose { opcode := op.toNat, cond := c.toNat, operands := [.reg 0 d.toNat] } = layout c op d 0#19 := by
  refine compose_cons c op d _ _ fun start j _ => ?_
  simp

theorem compose_ri (c : BitVec 3) (op : BitVec 6) (d : RegIdx) (v : BitVec 19) :
    compose { opcode := op.toNat, cond := c.toNat, operands := [.reg 0 d.toNat, .lit v.toNat] } = layout c op d v := by
  refine compose_cons c op d _ _ fun start j _ => ?_
  simp [BitVec.testBit_toNat]

/-! ### Conditions and opcode numbers -/

@[simp] theorem Cond.ofCode_code (c : Cond) : Cond.ofCode c.code = c := by
  cases c <;> decide

@[simp] theorem Cond.code_ofCode (n : BitVec 3) : (Cond.ofCode n).code = n := by
  revert n; decide

theorem Mnemonic.mem_all (k : Mnemonic) : k ∈ Mnemonic.all := by
  cases k <;> decide

theorem OpMap.number_injective {m : OpMap} (h : m.Distinct) {j k : Mnemonic} (e : m.number j = m.number k) : j = k :=
  List.inj_on_of_nodup_map h (Mnemonic.mem_all j) (Mnemonic.mem_all k) e

/-- A mnemonic's number looks up to that mnemonic (00_scope.md R3). -/
theorem OpMap.lookup_number {m : OpMap} (h : m.Distinct) (k : Mnemonic) : m.lookup (m.number k) = some k := by
  have hs : (m.lookup (m.number k)).isSome := by
    rw [OpMap.lookup, List.find?_isSome]
    exact ⟨k, Mnemonic.mem_all k, by simp⟩
  obtain ⟨j, hj⟩ := Option.isSome_iff_exists.mp hs
  have e : m.number j = m.number k := by simpa using List.find?_some hj
  rw [hj, OpMap.number_injective h e]

/-- A number looks up to a mnemonic only if it is that mnemonic's. -/
theorem OpMap.number_of_lookup {m : OpMap} {op : BitVec 6} {k : Mnemonic} (h : m.lookup op = some k) :
    m.number k = op := by
  simpa using List.find?_some h

/-- A number looks up to nothing exactly when it is no mnemonic's (30_encoding.md R81). -/
theorem OpMap.lookup_eq_none_iff {m : OpMap} {op : BitVec 6} : m.lookup op = none ↔ ∀ k, m.number k ≠ op := by
  simp only [OpMap.lookup, List.find?_eq_none, beq_iff_eq]
  exact ⟨fun h k => h k (Mnemonic.mem_all k), fun h k _ => h k⟩

/-- What the decoder answers, once: an instruction of the operation its opcode looks up to, or the refusal by name. -/
theorem decodeWord_cases (m : OpMap) (w : Word) :
    (∃ k, m.lookup (opcodeField w) = some k ∧ decodeWord m w = .ok (instrOf k w)) ∨
      (m.lookup (opcodeField w) = none ∧ decodeWord m w = .error (.unassignedOpcode w)) := by
  unfold decodeWord
  cases h : m.lookup (opcodeField w) with
  | none => exact .inr ⟨rfl, rfl⟩
  | some k => exact .inl ⟨k, rfl, rfl⟩

end Sys2Proof
end

