-- ==== Sys2Proof/Laws/Memory.lean ====
section
/-! SUPPORT. The laws of the byte memory: what a read gives after a write, that every operation keeps the canonical form
and stays inside the array, and that a canonical memory is determined by what it reads as. -/

namespace Sys2Proof

/-! ### Bytes of a word -/

/-- The word of the bytes of a word is the word (20_memory.md R44, R45). -/
theorem Word.ofBytes_byte (v : Word) :
    Word.ofBytes (Word.byte v 0) (Word.byte v 1) (Word.byte v 2) (Word.byte v 3) = v := by
  apply BitVec.eq_of_getLsbD_eq
  intro i hi
  simp only [Word.ofBytes, Word.byte, BitVec.getLsbD_append, BitVec.getLsbD_extractLsb']
  by_cases h0 : i < 8
  · simp [h0]
  · by_cases h1 : i - 8 < 8
    · simp [h0, h1]; congr 1; omega
    · by_cases h2 : i - 8 - 8 < 8
      · simp [h0, h1, h2]; congr 1; omega
      · have h3 : i - 8 - 8 - 8 < 8 := by omega
        simp [h0, h1, h2, h3]; congr 1; omega

/-- The word of four bytes as a number (20_memory.md R44). -/
theorem Word.toNat_ofBytes (b0 b1 b2 b3 : Byte) :
    (Word.ofBytes b0 b1 b2 b3).toNat =
      b0.toNat + 2 ^ 8 * b1.toNat + 2 ^ 16 * b2.toNat + 2 ^ 24 * b3.toNat := by
  have h0 := b0.isLt
  have h1 := b1.isLt
  have h2 := b2.isLt
  simp only [Word.ofBytes, BitVec.toNat_append]
  rw [← Nat.shiftLeft_add_eq_or_of_lt h2, ← Nat.shiftLeft_add_eq_or_of_lt h1, ← Nat.shiftLeft_add_eq_or_of_lt h0]
  simp only [Nat.shiftLeft_eq]
  omega

/-- Byte `k` of a word as a number. -/
theorem Word.toNat_byte (v : Word) (k : Nat) : (Word.byte v k).toNat = v.toNat / 2 ^ (8 * k) % 2 ^ 8 := by
  simp [Word.byte, BitVec.extractLsb'_toNat, Nat.shiftRight_eq_div_pow]

/-! ### One byte -/

theorem Memory.wfFrom_mono {lo lo' : Nat} {m : Memory} (h : Memory.wfFrom lo m = true) (hl : lo' ≤ lo) :
    Memory.wfFrom lo' m = true := by
  cases m with
  | nil => rfl
  | cons cell rest =>
    simp only [Memory.wfFrom, Bool.and_eq_true, decide_eq_true_eq] at h ⊢
    exact ⟨⟨by omega, h.1.2⟩, h.2⟩

/-- Below its first address a canonical memory lists nothing. -/
theorem Memory.read_of_lt {lo a : Nat} {m : Memory} (h : Memory.wfFrom lo m = true) (ha : a < lo) :
    m.read a = Memory.unlisted := by
  induction m generalizing lo with
  | nil => rfl
  | cons cell rest ih =>
    simp only [Memory.wfFrom, Bool.and_eq_true, decide_eq_true_eq] at h
    have hne : cell.1 ≠ a := by omega
    simp only [Memory.read, hne, if_false]
    exact ih h.2 (by omega)

/-- A byte read after a byte written: the value written at its address, else what was there. -/
theorem Memory.read_write_from {lo : Nat} {m : Memory} (h : Memory.wfFrom lo m = true) (a x : Nat) (v : Byte) :
    (m.write a v).read x = if x = a then v else m.read x := by
  induction m generalizing lo with
  | nil =>
    by_cases hv : v = Memory.unlisted
    · by_cases hx : x = a <;> simp [Memory.write, Memory.read, hv, hx]
    · by_cases hx : x = a
      · simp [Memory.write, Memory.read, hv, hx]
      · have : a ≠ x := fun e => hx e.symm
        simp [Memory.write, Memory.read, hv, hx, this]
  | cons cell rest ih =>
    obtain ⟨k, b⟩ := cell
    have h' := h
    simp only [Memory.wfFrom, Bool.and_eq_true, decide_eq_true_eq] at h'
    by_cases hlt : a < k
    · by_cases hv : v = Memory.unlisted
      · by_cases hx : x = a
        · subst hx
          have hk : k ≠ x := by omega
          have := Memory.read_of_lt h'.2 (show x < k + 1 by omega)
          simp [Memory.write, hlt, hv, Memory.read, hk, this]
        · simp [Memory.write, hlt, hv, hx]
      · by_cases hx : x = a
        · simp [Memory.write, hlt, hv, Memory.read, hx]
        · have : a ≠ x := fun e => hx e.symm
          simp [Memory.write, hlt, hv, Memory.read, hx, this]
    · by_cases heq : a = k
      · subst heq
        by_cases hv : v = Memory.unlisted
        · by_cases hx : x = a
          · subst hx
            have := Memory.read_of_lt h'.2 (show x < x + 1 by omega)
            simp [Memory.write, hv, this]
          · have : a ≠ x := fun e => hx e.symm
            simp [Memory.write, hv, hx, Memory.read, this]
        · by_cases hx : x = a
          · simp [Memory.write, hv, hx, Memory.read]
          · have : a ≠ x := fun e => hx e.symm
            simp [Memory.write, hv, hx, Memory.read, this]
      · by_cases hx : k = x
        · subst hx
          have : k ≠ a := fun e => heq e.symm
          simp [Memory.write, hlt, heq, Memory.read, this]
        · simp [Memory.write, hlt, heq, Memory.read, hx, ih h'.2]

theorem Memory.read_write {m : Memory} (h : m.wf = true) (a x : Nat) (v : Byte) :
    (m.write a v).read x = if x = a then v else m.read x :=
  Memory.read_write_from h a x v

/-- Writing a byte keeps the canonical form. -/
theorem Memory.write_wfFrom {lo : Nat} {m : Memory} (h : Memory.wfFrom lo m = true) {a : Nat} (ha : lo ≤ a) (v : Byte) :
    Memory.wfFrom lo (m.write a v) = true := by
  induction m generalizing lo with
  | nil => by_cases hv : v = Memory.unlisted <;> simp [Memory.write, Memory.wfFrom, hv, ha]
  | cons cell rest ih =>
    obtain ⟨k, b⟩ := cell
    have h' := h
    simp only [Memory.wfFrom, Bool.and_eq_true, decide_eq_true_eq] at h'
    by_cases hlt : a < k
    · by_cases hv : v = Memory.unlisted
      · simpa [Memory.write, hlt, hv] using h
      · simp [Memory.write, hlt, hv, Memory.wfFrom, ha, h'.1.2, h'.2]
    · by_cases heq : a = k
      · subst heq
        by_cases hv : v = Memory.unlisted
        · simpa [Memory.write, hv] using Memory.wfFrom_mono h'.2 (by omega)
        · simp [Memory.write, hv, Memory.wfFrom, ha, h'.2]
      · simp [Memory.write, hlt, heq, Memory.wfFrom, h'.1.1, h'.1.2, ih h'.2 (show k + 1 ≤ a by omega)]

theorem Memory.write_wf {m : Memory} (h : m.wf = true) (a : Nat) (v : Byte) : (m.write a v).wf = true :=
  Memory.write_wfFrom h (Nat.zero_le a) v

/-- Writing a byte lists nothing but that byte and what was listed. -/
theorem Memory.mem_write {m : Memory} {a : Nat} {v : Byte} {cell : Host.Cell} (h : cell ∈ m.write a v) :
    cell = (a, v) ∨ cell ∈ m := by
  induction m with
  | nil =>
    by_cases hv : v = Memory.unlisted <;> simp [Memory.write, hv] at h
    exact .inl h
  | cons head rest ih =>
    obtain ⟨k, b⟩ := head
    simp only [Memory.write] at h
    split_ifs at h <;> simp only [List.mem_cons] at h ⊢
    · exact .inr h
    · exact h
    · exact .inr (.inr h)
    · exact h.elim .inl fun h => .inr (.inr h)
    · rcases h with h | h
      · exact .inr (.inl h)
      · exact (ih h).elim .inl fun h => .inr (.inr h)

/-- Writing a byte at an address that exists lists no address that does not. -/
theorem Memory.write_within {size : Nat} {m : Memory} (h : Memory.within size m = true) {a : Nat} (ha : a < size)
    (v : Byte) : Memory.within size (m.write a v) = true := by
  simp only [Memory.within, List.all_eq_true, decide_eq_true_eq] at h ⊢
  intro cell hc
  rcases Memory.mem_write hc with rfl | hc
  · exact ha
  · exact h cell hc

/-- A canonical memory is determined by what its addresses read as. -/
theorem Memory.ext_of_read_from {lo : Nat} {m n : Memory} (hm : Memory.wfFrom lo m = true)
    (hn : Memory.wfFrom lo n = true) (h : ∀ a, m.read a = n.read a) : m = n := by
  induction m generalizing lo n with
  | nil =>
    cases n with
    | nil => rfl
    | cons cell rest =>
      exfalso
      simp only [Memory.wfFrom, Bool.and_eq_true, decide_eq_true_eq] at hn
      have := h cell.1
      simp [Memory.read] at this
      exact hn.1.2 this.symm
  | cons cell rest ih =>
    obtain ⟨k, b⟩ := cell
    have hm' := hm
    simp only [Memory.wfFrom, Bool.and_eq_true, decide_eq_true_eq] at hm'
    cases n with
    | nil =>
      exfalso
      have := h k
      simp [Memory.read] at this
      exact hm'.1.2 this
    | cons cell' rest' =>
      obtain ⟨k', b'⟩ := cell'
      have hn' := hn
      simp only [Memory.wfFrom, Bool.and_eq_true, decide_eq_true_eq] at hn'
      have hk : k = k' := by
        rcases Nat.lt_trichotomy k k' with hlt | heq | hgt
        · exfalso
          have h1 := h k
          have h2 : k' ≠ k := by omega
          have h3 := Memory.read_of_lt hn'.2 (show k < k' + 1 by omega)
          simp [Memory.read, h2, h3] at h1
          exact hm'.1.2 h1
        · exact heq
        · exfalso
          have h1 := h k'
          have h2 : k ≠ k' := by omega
          have h3 := Memory.read_of_lt hm'.2 (show k' < k + 1 by omega)
          simp [Memory.read, h2, h3] at h1
          exact hn'.1.2 h1.symm
      subst hk
      have hb : b = b' := by simpa [Memory.read] using h k
      subst hb
      have hrest : rest = rest' := by
        refine ih hm'.2 hn'.2 fun a => ?_
        by_cases ha : k = a
        · subst ha
          rw [Memory.read_of_lt hm'.2 (show k < k + 1 by omega), Memory.read_of_lt hn'.2 (show k < k + 1 by omega)]
        · simpa [Memory.read, ha] using h a
      rw [hrest]

theorem Memory.ext_of_read {m n : Memory} (hm : m.wf = true) (hn : n.wf = true) (h : ∀ a, m.read a = n.read a) :
    m = n :=
  Memory.ext_of_read_from hm hn h

/-! ### Words -/

theorem Memory.writeWord_wf {m : Memory} (h : m.wf = true) (a : Nat) (v : Word) : (m.writeWord a v).wf = true :=
  Memory.write_wf (Memory.write_wf (Memory.write_wf (Memory.write_wf h _ _) _ _) _ _) _ _

theorem Memory.writeWord_within {size : Nat} {m : Memory} (h : Memory.within size m = true) {a : Nat}
    (ha : a + 4 ≤ size) (v : Word) : Memory.within size (m.writeWord a v) = true :=
  Memory.write_within (Memory.write_within (Memory.write_within (Memory.write_within h (by omega) _) (by omega) _)
    (by omega) _) (by omega) _

/-- A byte read after a word written: byte `x - a` of the word inside its four bytes, else what was there. -/
theorem Memory.read_writeWord {m : Memory} (h : m.wf = true) (a x : Nat) (v : Word) :
    (m.writeWord a v).read x = if a ≤ x ∧ x < a + 4 then Word.byte v (x - a) else m.read x := by
  have h1 := Memory.write_wf h a (Word.byte v 0)
  have h2 := Memory.write_wf h1 (a + 1) (Word.byte v 1)
  have h3 := Memory.write_wf h2 (a + 2) (Word.byte v 2)
  simp only [Memory.writeWord]
  rw [Memory.read_write h3, Memory.read_write h2, Memory.read_write h1, Memory.read_write h]
  by_cases e3 : x = a + 3
  · subst e3; simp
  · by_cases e2 : x = a + 2
    · subst e2; simp
    · by_cases e1 : x = a + 1
      · subst e1; simp
      · by_cases e0 : x = a
        · subst e0; simp
        · have : ¬ (a ≤ x ∧ x < a + 4) := by omega
          simp [e0, e1, e2, e3, this]

theorem Memory.read_writeWord_of_outside {m : Memory} (h : m.wf = true) {a x : Nat} (v : Word)
    (hx : x < a ∨ a + 4 ≤ x) : (m.writeWord a v).read x = m.read x := by
  have : ¬ (a ≤ x ∧ x < a + 4) := by omega
  simp [Memory.read_writeWord h, this]

/-- A word read where a word was written is that word (41_load_store.md R153). -/
theorem Memory.readWord_writeWord {m : Memory} (h : m.wf = true) (a : Nat) (v : Word) :
    (m.writeWord a v).readWord a = v := by
  simp only [Memory.readWord, Memory.read_writeWord h]
  have e0 : a ≤ a ∧ a < a + 4 := by omega
  have e1 : a ≤ a + 1 ∧ a + 1 < a + 4 := by omega
  have e2 : a ≤ a + 2 ∧ a + 2 < a + 4 := by omega
  have e3 : a ≤ a + 3 ∧ a + 3 < a + 4 := by omega
  simp only [e0, e1, e2, e3, and_self, if_true, Nat.sub_self, Nat.add_sub_cancel_left]
  exact Word.ofBytes_byte v

/-- A word is unchanged by writing a word beside it. -/
theorem Memory.readWord_writeWord_of_apart {m : Memory} (h : m.wf = true) {a b : Nat} (v : Word)
    (hab : a + 4 ≤ b ∨ b + 4 ≤ a) : (m.writeWord a v).readWord b = m.readWord b := by
  simp only [Memory.readWord]
  rw [Memory.read_writeWord_of_outside h v (by omega), Memory.read_writeWord_of_outside h v (by omega),
    Memory.read_writeWord_of_outside h v (by omega), Memory.read_writeWord_of_outside h v (by omega)]

theorem Memory.writeWords_wf {m : Memory} (h : m.wf = true) (a : Nat) (vs : List Word) :
    (m.writeWords a vs).wf = true := by
  induction vs generalizing m a with
  | nil => exact h
  | cons v vs ih => exact ih (Memory.writeWord_wf h a v) (a + 4)

theorem Memory.writeWords_within {size : Nat} {m : Memory} (h : Memory.within size m = true) {a : Nat}
    {vs : List Word} (ha : a + 4 * vs.length ≤ size) : Memory.within size (m.writeWords a vs) = true := by
  induction vs generalizing m a with
  | nil => exact h
  | cons v vs ih =>
    simp only [List.length_cons] at ha
    exact ih (Memory.writeWord_within h (by omega) v) (by omega)

end Sys2Proof
end

