-- ==== Sys2Proof/Laws/State.lean ====
section
/-! SUPPORT. The small lemmas of the state: one per field per update, and reading a register after an update. Later
proofs cite these and unfold no record update. -/

namespace Sys2Proof.Machine

/-! ### `setReg` -/

@[simp] theorem setReg_flags (s : State) (r : RegIdx) (v : Word) : (s.setReg r v).flags = s.flags := rfl

@[simp] theorem setReg_mem (s : State) (r : RegIdx) (v : Word) : (s.setReg r v).mem = s.mem := rfl

@[simp] theorem setReg_codeLen (s : State) (r : RegIdx) (v : Word) : (s.setReg r v).codeLen = s.codeLen := rfl

@[simp] theorem setReg_run (s : State) (r : RegIdx) (v : Word) : (s.setReg r v).run = s.run := rfl

@[simp] theorem setReg_cause (s : State) (r : RegIdx) (v : Word) : (s.setReg r v).cause = s.cause := rfl

@[simp] theorem setReg_info (s : State) (r : RegIdx) (v : Word) : (s.setReg r v).info = s.info := rfl

@[simp] theorem setReg_out (s : State) (r : RegIdx) (v : Word) : (s.setReg r v).out = s.out := rfl

@[simp] theorem setReg_cfg (s : State) (r : RegIdx) (v : Word) : (s.setReg r v).cfg = s.cfg := rfl

/-! ### `setPc` -/

@[simp] theorem setPc_flags (s : State) (v : Word) : (s.setPc v).flags = s.flags := rfl

@[simp] theorem setPc_mem (s : State) (v : Word) : (s.setPc v).mem = s.mem := rfl

@[simp] theorem setPc_codeLen (s : State) (v : Word) : (s.setPc v).codeLen = s.codeLen := rfl

@[simp] theorem setPc_run (s : State) (v : Word) : (s.setPc v).run = s.run := rfl

@[simp] theorem setPc_cause (s : State) (v : Word) : (s.setPc v).cause = s.cause := rfl

@[simp] theorem setPc_info (s : State) (v : Word) : (s.setPc v).info = s.info := rfl

@[simp] theorem setPc_out (s : State) (v : Word) : (s.setPc v).out = s.out := rfl

@[simp] theorem setPc_cfg (s : State) (v : Word) : (s.setPc v).cfg = s.cfg := rfl

/-! ### `raise` -/

@[simp] theorem raise_regs (e : Exn) (s : State) : (raise e s).regs = s.regs := rfl

@[simp] theorem raise_flags (e : Exn) (s : State) : (raise e s).flags = s.flags := rfl

@[simp] theorem raise_mem (e : Exn) (s : State) : (raise e s).mem = s.mem := rfl

@[simp] theorem raise_codeLen (e : Exn) (s : State) : (raise e s).codeLen = s.codeLen := rfl

@[simp] theorem raise_run (e : Exn) (s : State) : (raise e s).run = .faulted := rfl

@[simp] theorem raise_cause (e : Exn) (s : State) : (raise e s).cause = some e.cause := rfl

@[simp] theorem raise_info (e : Exn) (s : State) : (raise e s).info = some e.info := rfl

@[simp] theorem raise_out (e : Exn) (s : State) : (raise e s).out = s.out := rfl

@[simp] theorem raise_cfg (e : Exn) (s : State) : (raise e s).cfg = s.cfg := rfl

/-! ### `halt` -/

@[simp] theorem halt_regs (s : State) : (halt s).regs = s.regs := rfl

@[simp] theorem halt_flags (s : State) : (halt s).flags = s.flags := rfl

@[simp] theorem halt_mem (s : State) : (halt s).mem = s.mem := rfl

@[simp] theorem halt_codeLen (s : State) : (halt s).codeLen = s.codeLen := rfl

@[simp] theorem halt_run (s : State) : (halt s).run = .halted := rfl

@[simp] theorem halt_cause (s : State) : (halt s).cause = s.cause := rfl

@[simp] theorem halt_info (s : State) : (halt s).info = s.info := rfl

@[simp] theorem halt_out (s : State) : (halt s).out = s.out := rfl

@[simp] theorem halt_cfg (s : State) : (halt s).cfg = s.cfg := rfl

/-! ### `emit` -/

@[simp] theorem emit_regs (bytes : List Byte) (s : State) : (emit bytes s).regs = s.regs := rfl

@[simp] theorem emit_flags (bytes : List Byte) (s : State) : (emit bytes s).flags = s.flags := rfl

@[simp] theorem emit_mem (bytes : List Byte) (s : State) : (emit bytes s).mem = s.mem := rfl

@[simp] theorem emit_codeLen (bytes : List Byte) (s : State) : (emit bytes s).codeLen = s.codeLen := rfl

@[simp] theorem emit_run (bytes : List Byte) (s : State) : (emit bytes s).run = s.run := rfl

@[simp] theorem emit_cause (bytes : List Byte) (s : State) : (emit bytes s).cause = s.cause := rfl

@[simp] theorem emit_info (bytes : List Byte) (s : State) : (emit bytes s).info = s.info := rfl

@[simp] theorem emit_out (bytes : List Byte) (s : State) : (emit bytes s).out = s.out ++ bytes := rfl

@[simp] theorem emit_cfg (bytes : List Byte) (s : State) : (emit bytes s).cfg = s.cfg := rfl

/-! ### `advance` -/

@[simp] theorem advance_flags (s : State) : (advance s).flags = s.flags := rfl

@[simp] theorem advance_mem (s : State) : (advance s).mem = s.mem := rfl

@[simp] theorem advance_codeLen (s : State) : (advance s).codeLen = s.codeLen := rfl

@[simp] theorem advance_run (s : State) : (advance s).run = s.run := rfl

@[simp] theorem advance_cause (s : State) : (advance s).cause = s.cause := rfl

@[simp] theorem advance_info (s : State) : (advance s).info = s.info := rfl

@[simp] theorem advance_out (s : State) : (advance s).out = s.out := rfl

@[simp] theorem advance_cfg (s : State) : (advance s).cfg = s.cfg := rfl

/-! ### Reading a register -/

theorem reg_setReg_self (s : State) (r : RegIdx) (v : Word) : (s.setReg r v).reg r = v := by
  simp [State.reg, State.setReg, Vector.get_eq_getElem]

theorem reg_setReg_of_ne (s : State) {q r : RegIdx} (v : Word) (h : q ≠ r) : (s.setReg r v).reg q = s.reg q := by
  have h' : r.toNat ≠ q.toNat := fun e => h (BitVec.eq_of_toNat_eq e.symm)
  simp [State.reg, State.setReg, Vector.get_eq_getElem, h']

/-- A register read after a write: the value at the register written, else what was there. -/
@[simp] theorem reg_setReg (s : State) (q r : RegIdx) (v : Word) :
    (s.setReg r v).reg q = if q = r then v else s.reg q := by
  by_cases h : q = r
  · subst h; simp [reg_setReg_self]
  · simp [h, reg_setReg_of_ne]

@[simp] theorem reg_setPc (s : State) (q : RegIdx) (v : Word) :
    (s.setPc v).reg q = if q = RegIdx.pc then v else s.reg q :=
  reg_setReg s q RegIdx.pc v

@[simp] theorem reg_raise (e : Exn) (s : State) (q : RegIdx) : (raise e s).reg q = s.reg q := rfl

@[simp] theorem reg_halt (s : State) (q : RegIdx) : (halt s).reg q = s.reg q := rfl

@[simp] theorem reg_emit (bytes : List Byte) (s : State) (q : RegIdx) : (emit bytes s).reg q = s.reg q := rfl

@[simp] theorem reg_advance (s : State) (q : RegIdx) :
    (advance s).reg q = if q = RegIdx.pc then s.pc + 4#32 else s.reg q :=
  reg_setPc s q (s.pc + 4#32)

@[simp] theorem pc_advance (s : State) : (advance s).pc = s.pc + 4#32 := by
  simp [State.pc]

@[simp] theorem pc_raise (e : Exn) (s : State) : (raise e s).pc = s.pc := rfl

@[simp] theorem pc_halt (s : State) : (halt s).pc = s.pc := rfl

/-- Two states with the same registers, read one by one, have the same register file. -/
theorem regs_ext {s t : State} (h : ∀ q, s.reg q = t.reg q) : s.regs = t.regs := by
  apply Vector.ext
  intro i hi
  have := h (BitVec.ofNat 4 i)
  have hmod : i % 16 = i := Nat.mod_eq_of_lt hi
  simpa [State.reg, Vector.get_eq_getElem, BitVec.toNat_ofNat, hmod] using this

end Sys2Proof.Machine
end

