-- ==== Sys2Proof/Laws/Ops.lean ====
section
/-! SUPPORT. One lemma per shared operation that says once everything it can do: the gate, the access primitives, the fetch,
the body of an instruction and the step. Proofs about the machine cite these and unfold nothing. -/

namespace Sys2Proof.Machine

/-! ### The gate -/

theorem gated_of_set {c : Cond} {s : State} (h : conditionSet c s.flags = true)
    (body : Host.Outcome State Fault Refusal) : gated c s body = body := by
  simp [gated, h]

theorem gated_of_not_set {c : Cond} {s : State} (h : conditionSet c s.flags = false)
    (body : Host.Outcome State Fault Refusal) : gated c s body = .next s := by
  simp [gated, h]

/-- Condition 0 always executes (40_execution_cycle.md R125). -/
@[simp] theorem conditionSet_always (f : Flags) : conditionSet .always f = true := rfl

/-! ### Memory access -/

theorem inBounds_iff {s : State} {addr : Word} : inBounds s addr = true ↔ addr.toNat + 4 ≤ s.cfg.memSize := by
  simp [inBounds]

theorem memRead_of_inBounds {s : State} {addr : Word} (h : addr.toNat + 4 ≤ s.cfg.memSize) (kind : Access) :
    memRead kind addr s = .ok (s.mem.readWord addr.toNat) := by
  simp [memRead, inBounds, h]

theorem memRead_of_outOfBounds {s : State} {addr : Word} (h : s.cfg.memSize < addr.toNat + 4) (kind : Access) :
    memRead kind addr s = .error (outOfBounds kind addr) := by
  have : ¬ addr.toNat + 4 ≤ s.cfg.memSize := by omega
  simp [memRead, inBounds, this]

theorem memWrite_of_inBounds {s : State} {addr : Word} (h : addr.toNat + 4 ≤ s.cfg.memSize) (v : Word) :
    memWrite addr v s = .ok { s with mem := s.mem.writeWord addr.toNat v } := by
  simp [memWrite, inBounds, h]

theorem memWrite_of_outOfBounds {s : State} {addr : Word} (h : s.cfg.memSize < addr.toNat + 4) (v : Word) :
    memWrite addr v s = .error (outOfBounds .store addr) := by
  have : ¬ addr.toNat + 4 ≤ s.cfg.memSize := by omega
  simp [memWrite, inBounds, this]

/-! ### The fetch -/

theorem pcAligned_iff {s : State} : pcAligned s = true ↔ s.pc.toNat % 4 = 0 := by
  simp [pcAligned]

theorem atEnd_iff {s : State} : atEnd s = true ↔ ¬ s.pc < s.codeLen := by
  simp [atEnd]

/-- Everything a fetch can do: the word at the program counter, or one of the two fatal conditions of a fetch. -/
theorem fetch_cases (s : State) :
    (s.pc.toNat % 4 ≠ 0 ∧ s.cfg.fetchMisaligned = .fault ∧
        fetch s = .error { cause := .fetchMisaligned, info := s.pc }) ∨
      ((s.pc.toNat % 4 = 0 ∨ s.cfg.fetchMisaligned = .byteFetch) ∧ s.cfg.memSize < s.pc.toNat + 4 ∧
        fetch s = .error { cause := .outOfBoundsFetch, info := s.pc }) ∨
      ((s.pc.toNat % 4 = 0 ∨ s.cfg.fetchMisaligned = .byteFetch) ∧ s.pc.toNat + 4 ≤ s.cfg.memSize ∧
        fetch s = .ok (s.mem.readWord s.pc.toNat)) := by
  have hmem : fetch s = memRead .fetch s.pc s →
      (s.cfg.memSize < s.pc.toNat + 4 ∧ fetch s = .error { cause := .outOfBoundsFetch, info := s.pc }) ∨
        (s.pc.toNat + 4 ≤ s.cfg.memSize ∧ fetch s = .ok (s.mem.readWord s.pc.toNat)) := by
    intro e
    rcases Nat.lt_or_ge s.cfg.memSize (s.pc.toNat + 4) with h | h
    · exact .inl ⟨h, by rw [e, memRead_of_outOfBounds h]; rfl⟩
    · exact .inr ⟨h, by rw [e, memRead_of_inBounds h]⟩
  by_cases ha : s.pc.toNat % 4 = 0
  · have e : fetch s = memRead .fetch s.pc s := by simp [fetch, pcAligned, ha]
    rcases hmem e with ⟨h, h'⟩ | ⟨h, h'⟩
    · exact .inr (.inl ⟨.inl ha, h, h'⟩)
    · exact .inr (.inr ⟨.inl ha, h, h'⟩)
  · cases hp : s.cfg.fetchMisaligned with
    | fault => exact .inl ⟨ha, rfl, by simp [fetch, pcAligned, ha, hp]⟩
    | byteFetch =>
      have e : fetch s = memRead .fetch s.pc s := by simp [fetch, pcAligned, ha, hp]
      rcases hmem e with ⟨h, h'⟩ | ⟨h, h'⟩
      · exact .inr (.inl ⟨.inr rfl, h, h'⟩)
      · exact .inr (.inr ⟨.inr rfl, h, h'⟩)

/-! ### The body of an instruction -/

/-- A skipped instruction does nothing: the advance is done already (40_execution_cycle.md R127). -/
theorem exec_of_not_set {i : Instr} {s : State} (h : conditionSet i.cond s.flags = false) : exec i s = .next s := by
  cases i <;> exact gated_of_not_set h _

theorem exec_ldr_inBounds {c : Cond} {s : State} (hc : conditionSet c s.flags = true) {a : RegIdx}
    (h : (s.reg a).toNat + 4 ≤ s.cfg.memSize) (d : RegIdx) :
    exec (.ldr c d a) s = .next (s.setReg d (s.mem.readWord (s.reg a).toNat)) := by
  simp [exec, execLdr, gated_of_set hc, indirectAddress, memRead_of_inBounds h]

theorem exec_ldr_outOfBounds {c : Cond} {s : State} (hc : conditionSet c s.flags = true) {a : RegIdx}
    (h : s.cfg.memSize < (s.reg a).toNat + 4) (d : RegIdx) :
    exec (.ldr c d a) s = .next (raise { cause := .outOfBoundsLoad, info := s.reg a } s) := by
  simp [exec, execLdr, gated_of_set hc, indirectAddress, memRead_of_outOfBounds h, outOfBounds]

theorem exec_str_inBounds {c : Cond} {s : State} (hc : conditionSet c s.flags = true) {a : RegIdx}
    (h : (s.reg a).toNat + 4 ≤ s.cfg.memSize) (v : RegIdx) :
    exec (.str c v a) s = .next { s with mem := s.mem.writeWord (s.reg a).toNat (s.reg v) } := by
  simp [exec, execStr, gated_of_set hc, indirectAddress, registerOperand, memWrite_of_inBounds h]

theorem exec_str_outOfBounds {c : Cond} {s : State} (hc : conditionSet c s.flags = true) {a : RegIdx}
    (h : s.cfg.memSize < (s.reg a).toNat + 4) (v : RegIdx) :
    exec (.str c v a) s = .next (raise { cause := .outOfBoundsStore, info := s.reg a } s) := by
  simp [exec, execStr, gated_of_set hc, indirectAddress, registerOperand, memWrite_of_outOfBounds h, outOfBounds]

theorem exec_add_of_set {c : Cond} {s : State} (hc : conditionSet c s.flags = true) (d a b : RegIdx) :
    exec (.add c d a b) s = .next (s.setReg d (s.reg a + s.reg b)) :=
  gated_of_set hc _

theorem exec_sub_of_set {c : Cond} {s : State} (hc : conditionSet c s.flags = true) (d a b : RegIdx) :
    exec (.sub c d a b) s = .next (s.setReg d (s.reg a - s.reg b)) :=
  gated_of_set hc _

theorem exec_mul_of_set {c : Cond} {s : State} (hc : conditionSet c s.flags = true) (d a b : RegIdx) :
    exec (.mul c d a b) s = .next (s.setReg d (s.reg a * s.reg b)) :=
  gated_of_set hc _

theorem exec_div_of_ne_zero {c : Cond} {s : State} (hc : conditionSet c s.flags = true) {b : RegIdx}
    (h : s.reg b ≠ 0#32) (d a : RegIdx) :
    exec (.div c d a b) s = .next (s.setReg d (s.reg a / s.reg b)) := by
  simp [exec, execDiv, gated_of_set hc, registerOperand, h, binary]

theorem exec_div_of_zero {c : Cond} {s : State} (hc : conditionSet c s.flags = true) {b : RegIdx}
    (h : s.reg b = 0#32) (d a : RegIdx) :
    exec (.div c d a b) s = .next (raise { cause := .divideByZero, info := s.pc - 4#32 } s) := by
  simp [exec, execDiv, gated_of_set hc, registerOperand, h, currentInstruction]

theorem exec_mov_of_set {c : Cond} {s : State} (hc : conditionSet c s.flags = true) (d : RegIdx) (v : BitVec 19) :
    exec (.mov c d v) s = .next (s.setReg d (v.setWidth 32)) :=
  gated_of_set hc _

theorem exec_cmp_of_set {c : Cond} {s : State} (hc : conditionSet c s.flags = true) (a b : RegIdx) :
    exec (.cmp c a b) s = .next { s with flags := compareFlags (s.reg a) (s.reg b) } :=
  gated_of_set hc _

theorem exec_jmp_of_set {c : Cond} {s : State} (hc : conditionSet c s.flags = true) (r : RegIdx) :
    exec (.jmp c r) s = .next (s.setPc (s.reg r)) :=
  gated_of_set hc _

theorem exec_sav_of_set {c : Cond} {s : State} (hc : conditionSet c s.flags = true) (d : RegIdx) :
    exec (.sav c d) s = .next (s.setReg d s.pc) :=
  gated_of_set hc _

theorem exec_prn_of_set {c : Cond} {s : State} (hc : conditionSet c s.flags = true) (r : RegIdx) :
    exec (.prn c r) s = .next (emit (Word.bytes (s.reg r)) s) :=
  gated_of_set hc _

/-- What an executed body (one whose gate passed) can make of a state: write one register, write the flags, write one
word inside memory, output one word, or stop. -/
inductive BodyEffect (i : Instr) (s : State) : State → Prop where
  | register (r : RegIdx) (v : Word) (hcmp : i.mnemonic ≠ .cmp) (hprn : i.mnemonic ≠ .prn) (hstr : i.mnemonic ≠ .str) :
      BodyEffect i s (s.setReg r v)
  | compare (c : Cond) (a b : RegIdx) (hi : i = .cmp c a b) :
      BodyEffect i s { s with flags := compareFlags (s.reg a) (s.reg b) }
  | store (c : Cond) (v a : RegIdx) (hi : i = .str c v a) (h : (s.reg a).toNat + 4 ≤ s.cfg.memSize) :
      BodyEffect i s { s with mem := s.mem.writeWord (s.reg a).toNat (s.reg v) }
  | output (c : Cond) (r : RegIdx) (hi : i = .prn c r) : BodyEffect i s (emit (Word.bytes (s.reg r)) s)
  | divideByZero (c : Cond) (d a b : RegIdx) (hi : i = .div c d a b) (h : s.reg b = 0#32) :
      BodyEffect i s (raise { cause := .divideByZero, info := s.pc - 4#32 } s)
  | loadStop (c : Cond) (d a : RegIdx) (hi : i = .ldr c d a) (h : s.cfg.memSize < (s.reg a).toNat + 4) :
      BodyEffect i s (raise { cause := .outOfBoundsLoad, info := s.reg a } s)
  | storeStop (c : Cond) (v a : RegIdx) (hi : i = .str c v a) (h : s.cfg.memSize < (s.reg a).toNat + 4) :
      BodyEffect i s (raise { cause := .outOfBoundsStore, info := s.reg a } s)

/-- Every instruction answers a next state: the same one when it is skipped, else one of the effects above. -/
theorem exec_cases (i : Instr) (s : State) :
    (conditionSet i.cond s.flags = false ∧ exec i s = .next s) ∨
      (conditionSet i.cond s.flags = true ∧ ∃ t, exec i s = .next t ∧ BodyEffect i s t) := by
  cases hc : conditionSet i.cond s.flags with
  | false => exact .inl ⟨rfl, exec_of_not_set hc⟩
  | true =>
    refine .inr ⟨rfl, ?_⟩
    cases i with
    | ldr c d a =>
      rcases Nat.lt_or_ge s.cfg.memSize ((s.reg a).toNat + 4) with h | h
      · exact ⟨_, exec_ldr_outOfBounds hc h d, .loadStop c d a rfl h⟩
      · exact ⟨_, exec_ldr_inBounds hc h d, .register _ _ nofun nofun nofun⟩
    | str c v a =>
      rcases Nat.lt_or_ge s.cfg.memSize ((s.reg a).toNat + 4) with h | h
      · exact ⟨_, exec_str_outOfBounds hc h v, .storeStop c v a rfl h⟩
      · exact ⟨_, exec_str_inBounds hc h v, .store c v a rfl h⟩
    | div c d a b =>
      by_cases h : s.reg b = 0#32
      · exact ⟨_, exec_div_of_zero hc h d a, .divideByZero c d a b rfl h⟩
      · exact ⟨_, exec_div_of_ne_zero hc h d a, .register _ _ nofun nofun nofun⟩
    | add c d a b => exact ⟨_, exec_add_of_set hc d a b, .register _ _ nofun nofun nofun⟩
    | sub c d a b => exact ⟨_, exec_sub_of_set hc d a b, .register _ _ nofun nofun nofun⟩
    | mul c d a b => exact ⟨_, exec_mul_of_set hc d a b, .register _ _ nofun nofun nofun⟩
    | mov c d v => exact ⟨_, exec_mov_of_set hc d v, .register _ _ nofun nofun nofun⟩
    | cmp c a b => exact ⟨_, exec_cmp_of_set hc a b, .compare c a b rfl⟩
    | jmp c r => exact ⟨_, exec_jmp_of_set hc r, .register _ _ nofun nofun nofun⟩
    | sav c d => exact ⟨_, exec_sav_of_set hc d, .register _ _ nofun nofun nofun⟩
    | prn c r => exact ⟨_, exec_prn_of_set hc r, .output c r rfl⟩

/-! ### The step -/

/-- Everything the step of a running CORE can do: halt, stop at the fetch, meet an unassigned opcode, or run the decoded
instruction on the advanced state. -/
theorem step_running_cases {s : State} (h : s.run = .running) :
    (¬ s.pc < s.codeLen ∧ step s = .next (halt s)) ∨
      (s.pc < s.codeLen ∧ ∃ e, fetch s = .error e ∧ step s = .next (raise e s)) ∨
      (s.pc < s.codeLen ∧ ∃ w, fetch s = .ok w ∧ s.cfg.opmap.lookup (opcodeField w) = none ∧
        step s = undefinedOpcode w s) ∨
      (s.pc < s.codeLen ∧ ∃ w i, fetch s = .ok w ∧ decodeWord s.cfg.opmap w = .ok i ∧ step s = exec i (advance s)) := by
  have hs : step s = stepRunning s := by simp [step, h]
  by_cases hp : s.pc < s.codeLen
  · have ha : atEnd s = false := by
      rw [Bool.eq_false_iff]; exact fun e => atEnd_iff.mp e hp
    cases hf : fetch s with
    | error e => exact .inr (.inl ⟨hp, e, rfl, by simp [hs, stepRunning, ha, hf]⟩)
    | ok w =>
      rcases decodeWord_cases s.cfg.opmap w with ⟨k, _, hd⟩ | ⟨hl, hd⟩
      · exact .inr (.inr (.inr ⟨hp, w, _, rfl, hd, by simp [hs, stepRunning, ha, hf, hd]⟩))
      · exact .inr (.inr (.inl ⟨hp, w, rfl, hl, by simp [hs, stepRunning, ha, hf, hd]⟩))
  · exact .inl ⟨hp, by simp [hs, stepRunning, atEnd_iff.mpr hp]⟩

/-- Outside RUNNING there is no step. -/
theorem step_of_not_running {s t : State} (h : s.run ≠ .running) : step s ≠ .next t := by
  cases hr : s.run <;> simp_all [step]

end Sys2Proof.Machine
end

