-- ==== Sys2Proof/Laws/PerInstr.lean ====
section
/-! SUPPORT. Statements made per instruction, one lemma per constructor of `Instr` (LAWS.json names the families). -/

namespace Sys2Proof.Laws.FieldsOfEncoding

/-- The word of an instruction carries its opcode number, its condition, and in the fields of its format its operands
(30_encoding.md R72 to R78). -/
def Statement (i : Instr) : Prop :=
  ∀ m : OpMap, opcodeField (encode m i) = m.number i.mnemonic ∧ conditionField (encode m i) = i.cond.code ∧
    instrOf i.mnemonic (encode m i) = i

/-- What is left to say of one instruction: its word is a layout, and that layout's fields are its operands. -/
theorem of_layout {i : Instr} {d : RegIdx} {low : BitVec 19}
    (hw : ∀ m : OpMap, encode m i = layout i.cond.code (m.number i.mnemonic) d low)
    (hi : ∀ w, Cond.ofCode (conditionField w) = i.cond → registerField w 0 = d → registerField w 1 = low.extractLsb' 15 4 →
      registerField w 2 = low.extractLsb' 11 4 → immediateValue w 1 = low → instrOf i.mnemonic w = i) : Statement i := by
  intro m
  rw [hw m]
  exact ⟨opcodeField_layout .., conditionField_layout .., hi _ (by simp) (registerField_zero_layout ..)
    (registerField_one_layout ..) (registerField_two_layout ..) (immediateValue_layout ..)⟩

theorem ldr (c : Cond) (dst addrReg : RegIdx) : Statement (.ldr c dst addrReg) := by
  refine of_layout (fun _ => compose_r2 ..) fun w hc h0 h1 _ _ => ?_
  change Instr.ldr (Cond.ofCode (conditionField w)) (registerField w 0) (registerField w 1) = _
  rw [hc, h0, h1, lowR2_first]
  rfl

theorem str (c : Cond) (valReg addrReg : RegIdx) : Statement (.str c valReg addrReg) := by
  refine of_layout (fun _ => compose_r2 ..) fun w hc h0 h1 _ _ => ?_
  change Instr.str (Cond.ofCode (conditionField w)) (registerField w 0) (registerField w 1) = _
  rw [hc, h0, h1, lowR2_first]
  rfl

theorem add (c : Cond) (dst a b : RegIdx) : Statement (.add c dst a b) := by
  refine of_layout (fun _ => compose_r3 ..) fun w hc h0 h1 h2 _ => ?_
  change Instr.add (Cond.ofCode (conditionField w)) (registerField w 0) (registerField w 1) (registerField w 2) = _
  rw [hc, h0, h1, h2, lowR3_first, lowR3_second]
  rfl

theorem sub (c : Cond) (dst a b : RegIdx) : Statement (.sub c dst a b) := by
  refine of_layout (fun _ => compose_r3 ..) fun w hc h0 h1 h2 _ => ?_
  change Instr.sub (Cond.ofCode (conditionField w)) (registerField w 0) (registerField w 1) (registerField w 2) = _
  rw [hc, h0, h1, h2, lowR3_first, lowR3_second]
  rfl

theorem mul (c : Cond) (dst a b : RegIdx) : Statement (.mul c dst a b) := by
  refine of_layout (fun _ => compose_r3 ..) fun w hc h0 h1 h2 _ => ?_
  change Instr.mul (Cond.ofCode (conditionField w)) (registerField w 0) (registerField w 1) (registerField w 2) = _
  rw [hc, h0, h1, h2, lowR3_first, lowR3_second]
  rfl

theorem div (c : Cond) (dst a b : RegIdx) : Statement (.div c dst a b) := by
  refine of_layout (fun _ => compose_r3 ..) fun w hc h0 h1 h2 _ => ?_
  change Instr.div (Cond.ofCode (conditionField w)) (registerField w 0) (registerField w 1) (registerField w 2) = _
  rw [hc, h0, h1, h2, lowR3_first, lowR3_second]
  rfl

theorem mov (c : Cond) (dst : RegIdx) (imm19 : BitVec 19) : Statement (.mov c dst imm19) := by
  refine of_layout (fun _ => compose_ri ..) fun w hc h0 _ _ hv => ?_
  change Instr.mov (Cond.ofCode (conditionField w)) (registerField w 0) (immediateValue w 1) = _
  rw [hc, h0, hv]
  rfl

theorem cmp (c : Cond) (a b : RegIdx) : Statement (.cmp c a b) := by
  refine of_layout (fun _ => compose_r2 ..) fun w hc h0 h1 _ _ => ?_
  change Instr.cmp (Cond.ofCode (conditionField w)) (registerField w 0) (registerField w 1) = _
  rw [hc, h0, h1, lowR2_first]
  rfl

theorem jmp (c : Cond) (target : RegIdx) : Statement (.jmp c target) := by
  refine of_layout (fun _ => compose_r1 ..) fun w hc h0 _ _ _ => ?_
  change Instr.jmp (Cond.ofCode (conditionField w)) (registerField w 0) = _
  rw [hc, h0]
  rfl

theorem sav (c : Cond) (dst : RegIdx) : Statement (.sav c dst) := by
  refine of_layout (fun _ => compose_r1 ..) fun w hc h0 _ _ _ => ?_
  change Instr.sav (Cond.ofCode (conditionField w)) (registerField w 0) = _
  rw [hc, h0]
  rfl

theorem prn (c : Cond) (src : RegIdx) : Statement (.prn c src) := by
  refine of_layout (fun _ => compose_r1 ..) fun w hc h0 _ _ _ => ?_
  change Instr.prn (Cond.ofCode (conditionField w)) (registerField w 0) = _
  rw [hc, h0]
  rfl

end Sys2Proof.Laws.FieldsOfEncoding
end

