-- ==== Sys2Proof/Tests/Slice0.lean ====
section
/-! SUPPORT. The model's own tests: the well-formedness checks refuse what is ill-formed, words written out from the encoding
decode to their instructions, single steps give the values of the spec's vectors (95_test_vectors.md), and for every
statement with hypotheses a witness that they can be met together. -/

namespace Sys2Proof.Tests

open Sys2Proof Sys2Proof.Machine

/-! ### Helpers -/

/-- The next state of an outcome, if it is one. -/
def next? : Host.Outcome State Fault Refusal → Option State
  | .next t => some t
  | _ => none

/-- A running CORE, fresh from reset, with these words loaded. -/
def loaded (words : List Word) : State :=
  { State.reset with
    mem := Memory.writeWords [] 0 words
    codeLen := BitVec.ofNat 32 (4 * words.length)
    run := .running }

/-- A running CORE with an empty memory that is all code, and the program counter at `pc`. -/
def codeEverywhere (pc : Word) : State :=
  { State.reset with codeLen := 2048#32, run := .running }.setPc pc

/-- The state after one step. -/
def stepped (s : State) : Option State :=
  next? (step s)

/-- The flag state 4E + 2G + L. -/
def flagsOf (n : Nat) : Flags :=
  { equal := n.testBit 2, greater := n.testBit 1, less := n.testBit 0 }

/-- `s` under another setting of ILLEGAL_OPCODE. -/
def withIllegal (p : IllegalOpcode) (s : State) : State :=
  { s with cfg := { s.cfg with illegalOpcode := p } }

/-- `s` under FETCH_MISALIGNED = byte_fetch. -/
def withByteFetch (s : State) : State :=
  { s with cfg := { s.cfg with fetchMisaligned := .byteFetch } }

/-- A CORE with four bytes of memory (00_scope.md R2: the least MEM_SIZE). -/
def smallest : State :=
  State.resetOf { Config.default with memSize := 4 }

/-! ### WellFormed: an ill-formed term for each check -/

theorem test_opmap_twice_the_same_number : ¬ { OpMap.default with prn := 0 }.Distinct := by decide
theorem test_raw_legal : RawInstr.legal OpMap.default ⟨6, 7, [.reg 0 15, .lit 524287]⟩ = true := by decide
theorem test_raw_unassigned_opcode : RawInstr.legal OpMap.default ⟨11, 0, [.reg 0 0]⟩ = false := by decide
theorem test_raw_condition_8 : RawInstr.legal OpMap.default ⟨8, 8, [.reg 0 0]⟩ = false := by decide
theorem test_raw_register_16 : RawInstr.legal OpMap.default ⟨2, 0, [.reg 0 1, .reg 1 2, .reg 2 16]⟩ = false := by decide
theorem test_raw_literal_too_wide : RawInstr.legal OpMap.default ⟨6, 0, [.reg 0 0, .lit 524288]⟩ = false := by decide
theorem test_raw_wrong_shape : RawInstr.legal OpMap.default ⟨2, 0, [.reg 0 1, .reg 1 2]⟩ = false := by decide
theorem test_raw_wrong_slot : RawInstr.legal OpMap.default ⟨7, 0, [.reg 0 1, .reg 2 2]⟩ = false := by decide
theorem test_memory_not_rising : Memory.wf [(5, 1#8), (4, 1#8)] = false := by decide
theorem test_memory_repeated_address : Memory.wf [(5, 1#8), (5, 2#8)] = false := by decide
theorem test_memory_lists_unlisted_byte : Memory.wf [(5, 0#8)] = false := by decide
theorem test_memory_outside_the_array : Memory.within 2048 [(2048, 1#8)] = false := by decide
theorem test_config_default_valid : Config.default.Valid := by decide
theorem test_config_memory_too_small : ¬ { Config.default with memSize := 3 }.Valid := by decide
theorem test_config_memory_too_large : ¬ { Config.default with memSize := 4294967296 }.Valid := by decide
theorem test_config_opmap : ¬ { Config.default with opmap := { OpMap.default with sav := 8 } }.Valid := by decide
theorem test_config_reset_memory_form : ¬ { Config.default with resetMem := [(0, 0#8)] }.Valid := by decide
theorem test_config_reset_memory_outside : ¬ { Config.default with resetMem := [(4000, 1#8)] }.Valid := by decide

/-! ### Decoding: words written field by field, condition, opcode, slots (30_encoding.md R71, R76, R78) -/

theorem test_decode_ldr :
    decodeWord OpMap.default (6#3 ++ 0#6 ++ 2#4 ++ 1#4 ++ 0#15) = .ok (.ldr .greaterEqual 2 1) := by decide
theorem test_decode_str :
    decodeWord OpMap.default (4#3 ++ 1#6 ++ 14#4 ++ 9#4 ++ 0#15) = .ok (.str .equal 14 9) := by decide
theorem test_decode_add :
    decodeWord OpMap.default (1#3 ++ 2#6 ++ 2#4 ++ 1#4 ++ 5#4 ++ 0#11) = .ok (.add .less 2 1 5) := by decide
theorem test_decode_sub :
    decodeWord OpMap.default (2#3 ++ 3#6 ++ 8#4 ++ 4#4 ++ 15#4 ++ 0#11) = .ok (.sub .greater 8 4 15) := by decide
theorem test_decode_mul :
    decodeWord OpMap.default (5#3 ++ 4#6 ++ 3#4 ++ 12#4 ++ 10#4 ++ 0#11) = .ok (.mul .lessEqual 3 12 10) := by decide
theorem test_decode_div :
    decodeWord OpMap.default (7#3 ++ 5#6 ++ 1#4 ++ 7#4 ++ 11#4 ++ 0#11) = .ok (.div .anyFlag 1 7 11) := by decide
theorem test_decode_mov :
    decodeWord OpMap.default (3#3 ++ 6#6 ++ 3#4 ++ 432101#19) = .ok (.mov .notEqual 3 432101#19) := by decide
theorem test_decode_cmp :
    decodeWord OpMap.default (0#3 ++ 7#6 ++ 2#4 ++ 13#4 ++ 0#15) = .ok (.cmp .always 2 13) := by decide
theorem test_decode_jmp :
    decodeWord OpMap.default (1#3 ++ 8#6 ++ 3#4 ++ 0#19) = .ok (.jmp .less 3) := by decide
theorem test_decode_sav :
    decodeWord OpMap.default (0#3 ++ 9#6 ++ 6#4 ++ 0#19) = .ok (.sav .always 6) := by decide
theorem test_decode_prn :
    decodeWord OpMap.default (2#3 ++ 10#6 ++ 5#4 ++ 0#19) = .ok (.prn .greater 5) := by decide

/-- V1: all ignored bits of `add r0 r0 r1` set. -/
theorem test_decode_ignores_bits : decodeWord OpMap.default 0x01000FFF#32 = .ok (.add .always 0 0 1) := by decide
/-- V1: opcode 63 is unassigned. -/
theorem test_decode_unassigned :
    decodeWord OpMap.default 0xFFFFFFFF#32 = .error (.unassignedOpcode 0xFFFFFFFF#32) := by decide
/-- The opcode number 11 is the first that is unassigned. -/
theorem test_decode_first_unassigned :
    decodeWord OpMap.default (0#3 ++ 11#6 ++ 0#23) = .error (.unassignedOpcode 0x05800000#32) := by decide
/-- V1: the bytes of `add r2 r0 r1` in memory, least significant first. -/
theorem test_decode_bytes :
    decodeBytes OpMap.default [0x00#8, 0x08#8, 0x10#8, 0x01#8, 0x77#8] = .ok (.add .always 2 0 1, [0x77#8]) := by decide
theorem test_decode_truncated : decodeBytes OpMap.default [0#8, 0#8, 0#8] = .error .truncated := by decide
theorem test_decode_table_word : decodeTableWord 32 0x24180000 = some (.jmp .less 3) := by decide
theorem test_decode_table_word_unassigned : decodeTableWord 32 0x1F800000 = none := by decide

/-- V1: the widths of the other immediates. -/
theorem test_immediate_slots :
    (immediateValue 0xFFFFFFFF#32 0).toNat = 8388607 ∧ (immediateValue 0xFFFFFFFF#32 1).toNat = 524287 ∧
      (immediateValue 0xFFFFFFFF#32 2).toNat = 32767 := by decide

/-! ### Encoding (the words of V1, V5 and the programs) -/

theorem test_encode_add : encode OpMap.default (.add .always 2 0 1) = 0x01100800#32 := by decide
theorem test_encode_str : encode OpMap.default (.str .always 0 1) = 0x00808000#32 := by decide
theorem test_encode_mov : encode OpMap.default (.mov .notEqual 0 1) = 0x63000001#32 := by decide
theorem test_encode_prn : encode OpMap.default (.prn .always 2) = 0x05100000#32 := by decide
/-- R87: `mov r0 524288` toggles the destination's lowest bit. -/
theorem test_compose_overwide : compose ⟨6, 0, [.reg 0 0, .lit 524288]⟩ = 0x03080000#32 := by decide

/-! ### One step of each instruction (V3 to V8) -/

/-- V3: `ldr r2 r3` at 101 reads 22, 33, 44 of the word stored at 100, and the 0 after it. -/
theorem test_step_ldr_mixed :
    (stepped { (loaded [0x00118000#32]).setReg 3 101#32 with
      mem := (Memory.writeWords [] 0 [0x00118000#32]).writeWord 100 0x11223344#32 }).map (·.reg 2)
      = some 0x00112233#32 := by decide
/-- V3: `ldr r2 r3` at 2045 stops; r2 keeps its 9. -/
theorem test_step_ldr_stops :
    (stepped (((loaded [0x00118000#32]).setReg 3 2045#32).setReg 2 9#32)).map (fun t => (t.cause, t.info, t.reg 2))
      = some (some .outOfBoundsLoad, some 2045#32, 9#32) := by decide
/-- V3: `str r0 r1` stores 44 33 22 11. -/
theorem test_step_str :
    (stepped (((loaded [0x00808000#32]).setReg 0 0x11223344#32).setReg 1 100#32)).map
      (fun t => (List.range 5).map fun k => t.mem.read (100 + k)) = some [0x44#8, 0x33#8, 0x22#8, 0x11#8, 0#8] := by decide
/-- V3: `str r0 r3` at 2046 stores nothing. -/
theorem test_step_str_stops :
    (stepped (((loaded [0x00818000#32]).setReg 0 0x11223344#32).setReg 3 2046#32)).map
      (fun t => (t.cause, t.info, t.mem.read 2046, t.mem.read 2047))
      = some (some .outOfBoundsStore, some 2046#32, 0#8, 0#8) := by decide
/-- V4: the sum wraps. -/
theorem test_step_add :
    (stepped (((loaded [0x01100800#32]).setReg 0 0xFFFFFFFF#32).setReg 1 2#32)).map (·.reg 2) = some 1#32 := by decide
/-- V7: `add r15 r15 r1` at 4 with 8 in r1. -/
theorem test_step_add_to_pc :
    (stepped (((loaded [0#32, 0x017F8800#32]).setReg 1 8#32).setPc 4#32)).map (·.pc) = some 16#32 := by decide
/-- V4: first source minus second. -/
theorem test_step_sub :
    (stepped (((loaded [0x01900800#32]).setReg 0 5#32).setReg 1 17#32)).map (·.reg 2) = some 0xFFFFFFF4#32 := by decide
/-- V4: the low half of the product. -/
theorem test_step_mul :
    (stepped (((loaded [0x02100800#32]).setReg 0 123456789#32).setReg 1 1000#32)).map (·.reg 2)
      = some 0xBE991A08#32 := by decide
/-- V4: the quotient is unsigned. -/
theorem test_step_div :
    (stepped (((loaded [0x02900800#32]).setReg 0 0xFFFFFFFF#32).setReg 1 2#32)).map (·.reg 2)
      = some 0x7FFFFFFF#32 := by decide
/-- P4: `div` by zero at 12: INFO is 12, x[15] is 16. -/
theorem test_step_div_by_zero :
    (stepped ((loaded [0#32, 0#32, 0#32, 0x02900800#32]).setPc 12#32)).map (fun t => (t.run, t.cause, t.info, t.pc))
      = some (.faulted, some .divideByZero, some 12#32, 16#32) := by decide
/-- V5: the largest literal is not sign-extended. -/
theorem test_step_mov : (stepped (loaded [0x031FFFFF#32])).map (·.reg 3) = some 0x0007FFFF#32 := by decide
/-- V5: `move r0 7` with EGL = 010 is skipped. -/
theorem test_step_mov_skipped :
    (stepped { loaded [0x83000007#32] with flags := flagsOf 2 }).map (fun t => (t.reg 0, t.pc))
      = some (0#32, 4#32) := by decide
/-- V6: the comparison is unsigned. -/
theorem test_step_cmp :
    (stepped (((loaded [0x03900000#32]).setReg 2 0x80000000#32).setReg 0 0x7FFFFFFF#32)).map (·.flags)
      = some (flagsOf 2) := by decide
/-- V6: `cmp r15 r1` at 8 with 12 in r1. -/
theorem test_step_cmp_pc :
    (stepped (((loaded [0#32, 0#32, 0x03F88000#32]).setReg 1 12#32).setPc 8#32)).map (·.flags)
      = some (flagsOf 4) := by decide
/-- V7: `jmpl r3` at 24 with 16 in r3, taken. -/
theorem test_step_jmp :
    (stepped { ((loaded (List.replicate 6 0#32 ++ [0x24180000#32])).setReg 3 16#32).setPc 24#32 with
      flags := flagsOf 1 }).map (·.pc) = some 16#32 := by decide
/-- V7: `jmpl r3` at 24 with EGL = 100, not taken. -/
theorem test_step_jmp_not_taken :
    (stepped { ((loaded (List.replicate 6 0#32 ++ [0x24180000#32])).setReg 3 16#32).setPc 24#32 with
      flags := flagsOf 4 }).map (·.pc) = some 28#32 := by decide
/-- V7: `sav r3` at 16. -/
theorem test_step_sav :
    (stepped ((loaded [0#32, 0#32, 0#32, 0#32, 0x04980000#32]).setPc 16#32)).map (fun t => (t.reg 3, t.pc))
      = some (20#32, 20#32) := by decide
/-- V8: the bytes of `prn r2`. -/
theorem test_step_prn :
    (stepped ((loaded [0x05100000#32]).setReg 2 0x0A216948#32)).map (·.out)
      = some [0x48#8, 0x69#8, 0x21#8, 0x0A#8] := by decide

/-! ### The cycle, reset and the host (V7, V9) -/

/-- V9: with CODE_LEN = 0 the run halts at once. -/
theorem test_step_halts : (stepped (loaded [])).map (fun t => (t.run, t.out)) = some (.halted, []) := by decide
/-- V7: at 0xFFFFFFFF the halting test comes before the alignment. -/
theorem test_step_halts_misaligned : (stepped (codeEverywhere 0xFFFFFFFF#32)).map (·.run) = some .halted := by decide
/-- V7: at 6 the fetch is misaligned. -/
theorem test_step_misaligned :
    (stepped (codeEverywhere 6#32)).map (fun t => (t.cause, t.info, t.pc))
      = some (some .fetchMisaligned, some 6#32, 6#32) := by decide
/-- P7's reading under byte_fetch: bytes 1 to 4 of two words. -/
theorem test_step_byte_fetch : fetch (withByteFetch ((loaded [0x44332211#32, 0x88776655#32]).setPc 1#32))
    = .ok 0x55443322#32 := rfl
/-- V9: opcode 63 with condition 0, by default. -/
theorem test_step_illegal :
    (stepped ((loaded [0#32, 0#32, 0#32, 0x1F800000#32]).setPc 12#32)).map (fun t => (t.cause, t.info, t.pc))
      = some (some .illegalOpcode, some 0x1F800000#32, 16#32) := by decide
/-- V9: opcode 63 with condition 1 under fault_always, x[15] still at the word. -/
theorem test_step_illegal_always :
    (stepped (withIllegal .faultAlways ((loaded [0x03000001#32, 0x3F800000#32]).setPc 4#32))).map
      (fun t => (t.cause, t.pc)) = some (some .illegalOpcode, 4#32) := by decide
theorem test_step_idle : step State.reset = .fault .idle := rfl
theorem test_with_fetch_word : (stepped (State.reset.withFetchWord 32 0x03000041)).map (·.reg 0) = some 65#32 := by decide
/-- S7's host: LOAD of one word, then RUN. -/
theorem test_load_and_run :
    ((next? (hostLoad [0x03000041#32] State.reset)).bind fun s => next? (hostRun s)).map
      (fun t => (t.mem, t.codeLen, t.run)) = some ([(0, 0x41#8), (3, 0x03#8)], 4#32, .running) := by decide
/-- R6: the shown output of a halted run ends in the terminator. -/
theorem test_shown_output : shownOutput { State.reset with run := .halted, out := [8#8] } = [8#8, 0x0A#8] := by decide

/-! ### The assembler (V1, P2) -/

theorem test_assemble_overflow :
    Assembler.assemble OpMap.default "mov r0 524288\njmp 8\n".toList = .ok [0x03080000#32, 0x04000008#32] := by decide
theorem test_assemble_data_address :
    Assembler.assemble OpMap.default "mov r0 1234\nmov r1 %0\nstr r0 r1\n\nldr r2 r1".toList
      = .ok [0x030004D2#32, 0x03080011#32, 0x00808000#32, 0x00108000#32] := by decide
theorem test_assemble_suffix : Assembler.assemble OpMap.default "addge r2 r0 r5".toList = .ok [0xC1102800#32] := by decide
theorem test_assemble_unknown : Assembler.assemble OpMap.default "mov r0 1\nnop".toList
    = .error .unrecognizedMnemonic := by decide
theorem test_disassemble : Assembler.disassemble (.mov .notEqual 3 524287)
    = some ["movne".toList, "r3".toList, "524287".toList] := by decide

/-! ### Witnesses: the hypotheses of the statements can be met together, clause by clause

`s0 w` is a running CORE with the word `w` at byte 0, a nonzero divisor in r1 and 0 in r2, the last address of a data access
in r3 and the first one out of bounds in r4; its flags are 0. -/

/-- A running CORE with these registers set and the word at byte 0. -/
def s0 (w : Word) : State :=
  ((((loaded [w]).setReg 0 7#32).setReg 1 5#32).setReg 3 2044#32).setReg 4 2045#32

/-- The word at the program counter of `s` is fetched, and decodes to `i`. -/
theorem fetchesInstr_of {s : State} {w : Word} {i : Instr} (hr : s.run = .running) (hp : s.pc < s.codeLen)
    (hf : fetch s = .ok w) (hd : decodeWord s.cfg.opmap w = .ok i) : FetchesInstr s i :=
  ⟨w, ⟨hr, hp, hf⟩, hd⟩

theorem witness_DecodeOfEncodeIsTheInstruction : OpMap.default.Distinct := by decide
theorem witness_RoundTripHoldsExactlyForLegalOperands :
    OpMap.default.Distinct ∧ RawInstr.legal OpMap.default ⟨10, 7, [.reg 0 15]⟩ = true ∧
      RawInstr.legal OpMap.default ⟨10, 7, [.reg 0 16]⟩ = false := by decide
theorem witness_EncodeOfDecodeClearsIgnoredBits :
    decodeWord OpMap.default 0x01000FFF#32 = .ok (.add .always 0 0 1) := by decide
theorem witness_OnlyUsedBitsDecideDecoding : OpMap.default.lookup (opcodeField 0x01000FFF#32) = some .add := by decide
theorem witness_OverwideOperandsToggleTheirNeighbours : 15 < 16 ∧ 524287 < 2 ^ 19 := by decide
theorem witness_MovOfARegisterTokenMovesALiteral :
    OpMap.default.Distinct ∧ conditionSet .always State.reset.flags = true := by decide
theorem witness_MemReadIsLittleEndianOrOutOfBounds :
    (2044#32).toNat + 4 ≤ State.reset.cfg.memSize ∧ State.reset.cfg.memSize < (2045#32).toNat + 4 ∧
      State.reset.cfg.memSize < (0xFFFFFFFE#32).toNat + 4 := by decide
theorem witness_MemWriteStoresFourBytesOrNone :
    State.reset.mem.wf = true ∧ (2044#32).toNat + 4 ≤ State.reset.cfg.memSize ∧
      State.reset.cfg.memSize < (2045#32).toNat + 4 := by decide
theorem witness_LoadReturnsTheStoredWord : ∃ s t u : State, s.mem.wf = true ∧ conditionSet .always s.flags = true ∧
    (s.reg 3).toNat + 4 ≤ s.cfg.memSize ∧ exec (.str .always 0 3) s = .next t ∧
    u.cfg.memSize = t.cfg.memSize ∧ u.reg 5 = s.reg 3 ∧
    (∀ x, (s.reg 3).toNat ≤ x → x < (s.reg 3).toNat + 4 → u.mem.read x = t.mem.read x) ∧
    conditionSet .less u.flags = true :=
  ⟨s0 0, { s0 0 with mem := (s0 0).mem.writeWord 2044 7#32 },
    { (s0 0).setReg 5 2044#32 with mem := (s0 0).mem.writeWord 2044 7#32, flags := flagsOf 1 },
    by decide, by decide, by decide, rfl, rfl, by decide, fun _ _ _ => rfl, by decide⟩
theorem witness_StoreIsSeenByTheNextFetch : ∃ s t : State, s.mem.wf = true ∧ s.run = .running ∧
    conditionSet .always s.flags = true ∧ s.reg 5 = s.pc ∧ s.pc < s.codeLen ∧ s.pc.toNat % 4 = 0 ∧
    s.pc.toNat + 4 ≤ s.cfg.memSize ∧ exec (.str .always 0 5) s = .next t :=
  ⟨s0 0, _, by decide, rfl, by decide, by decide, by decide, by decide, by decide, rfl⟩
theorem witness_LdrLoadsTheWordAndNothingElse :
    conditionSet .greaterEqual (flagsOf 2) = true ∧ ((s0 0).reg 3).toNat + 4 ≤ (s0 0).cfg.memSize := by decide
theorem witness_StrStoresTheWordAndNothingElse : (s0 0).mem.wf = true ∧ conditionSet .always (s0 0).flags = true ∧
    ((s0 0).reg 3).toNat + 4 ≤ (s0 0).cfg.memSize := by decide
theorem witness_DataAccessOutOfBoundsStops : conditionSet .always (s0 0).flags = true ∧
    (s0 0).cfg.memSize < ((s0 0).reg 4).toNat + 4 := by decide
theorem witness_AddSubMulWriteTheWrappedResult : conditionSet .always (s0 0).flags = true := by decide
theorem witness_DivWritesTheUnsignedQuotient :
    conditionSet .always (s0 0).flags = true ∧ (s0 0).reg 1 ≠ 0 := by decide
theorem witness_DivByZeroStops : conditionSet .always (s0 0).flags = true ∧ (s0 0).reg 2 = 0 := by decide
theorem witness_GateIsTheAndWithTheFlagVector : conditionSet .less (flagsOf 6) = false := by decide
theorem witness_MovWritesTheLiteral : conditionSet .notEqual (flagsOf 2) = true := by decide
theorem witness_CmpSetsExactlyOneFlag : conditionSet .equal (flagsOf 4) = true := by decide
theorem witness_ConditionsAfterCompareAreTheRelations : conditionSet .lessEqual (flagsOf 1) = true := by decide
theorem witness_JmpMovesTheRegisterToThePc : conditionSet .less (flagsOf 1) = true := by decide
theorem witness_SavCopiesThePc : conditionSet .anyFlag (flagsOf 4) = true := by decide
theorem witness_PrnAppendsFourBytes : conditionSet .always State.reset.flags = true := by decide
theorem witness_PrnEmitsTheBytesStrStores : ∃ s t u : State, s.mem.wf = true ∧ conditionSet .always s.flags = true ∧
    (s.reg 3).toNat + 4 ≤ s.cfg.memSize ∧ exec (.prn .always 0) s = .next t ∧ exec (.str .always 0 3) s = .next u :=
  ⟨s0 0, _, _, by decide, by decide, by decide, rfl, rfl⟩

theorem witness_StepRunsTheDecodedInstruction : FetchesInstr (s0 0x01100800#32) (.add .always 2 0 1) :=
  fetchesInstr_of rfl (by decide) rfl rfl
/-- At the end of the code, with no code at all, and one byte before the end. -/
theorem witness_StepHaltsAtTheEndOfTheCode :
    ((loaded [0#32]).setPc 4#32).run = .running ∧ ((loaded [0#32]).setPc 4#32).codeLen ≤ ((loaded [0#32]).setPc 4#32).pc ∧
      (loaded []).run = .running ∧ (loaded []).codeLen = 0 ∧
      ((loaded [0#32]).setPc 3#32).pc < ((loaded [0#32]).setPc 3#32).codeLen := by decide
/-- A skipped `mov`; opcode 63 under condition 1, by default. -/
theorem witness_SkippedWordOnlyAdvancesThePc :
    (Fetches (s0 0x83000007#32) 0x83000007#32 ∧
      conditionSet (Cond.ofCode (conditionField 0x83000007#32)) (s0 0).flags = false ∧
      OpMap.default.number .mov = opcodeField 0x83000007#32) ∧
    (Fetches (s0 0x3F800000#32) 0x3F800000#32 ∧
      conditionSet (Cond.ofCode (conditionField 0x3F800000#32)) (s0 0).flags = false ∧
      (s0 0).cfg.illegalOpcode = .faultIfExecuted) :=
  ⟨⟨⟨rfl, by decide, rfl⟩, by decide, by decide⟩, ⟨⟨rfl, by decide, rfl⟩, by decide, by decide⟩⟩
/-- Under each policy; under `byte_fetch` at the last misaligned address whose word lies in memory. -/
theorem witness_MisalignedFetchFollowsItsParameter :
    ((codeEverywhere 1#32).run = .running ∧ (codeEverywhere 1#32).pc < (codeEverywhere 1#32).codeLen ∧
      (codeEverywhere 1#32).pc.toNat % 4 ≠ 0 ∧ (codeEverywhere 1#32).cfg.fetchMisaligned = .fault) ∧
    (withByteFetch (codeEverywhere 2043#32)).pc < (withByteFetch (codeEverywhere 2043#32)).codeLen ∧
      (withByteFetch (codeEverywhere 2043#32)).pc.toNat % 4 ≠ 0 ∧
      (withByteFetch (codeEverywhere 2043#32)).cfg.fetchMisaligned = .byteFetch ∧
      (withByteFetch (codeEverywhere 2043#32)).pc.toNat + 4 ≤ 2048 := by decide
/-- A misaligned fetch at 2045 under `byte_fetch`; an aligned one at 2048 with a code longer than memory. -/
theorem witness_FetchOutOfBoundsStops :
    ((withByteFetch (codeEverywhere 2045#32)).run = .running ∧
      (withByteFetch (codeEverywhere 2045#32)).pc < (withByteFetch (codeEverywhere 2045#32)).codeLen ∧
      (withByteFetch (codeEverywhere 2045#32)).cfg.fetchMisaligned = .byteFetch ∧
      (withByteFetch (codeEverywhere 2045#32)).cfg.memSize < (withByteFetch (codeEverywhere 2045#32)).pc.toNat + 4) ∧
    (codeEverywhere 2048#32).pc < { codeEverywhere 2048#32 with codeLen := 2052#32 }.codeLen ∧
      (codeEverywhere 2048#32).pc.toNat % 4 = 0 ∧ (codeEverywhere 2048#32).cfg.memSize < 2048 + 4 := by decide
/-- Opcode 63 under each setting, with a gate that passes and one that does not. -/
theorem witness_UnassignedOpcodeFollowsItsParameter :
    (Fetches (s0 0x1F800000#32) 0x1F800000#32 ∧ (∀ k, OpMap.default.number k ≠ opcodeField 0x1F800000#32) ∧
      (s0 0).cfg.illegalOpcode = .faultIfExecuted ∧
      conditionSet (Cond.ofCode (conditionField 0x1F800000#32)) (s0 0).flags = true) ∧
    (Fetches (s0 0xFF800000#32) 0xFF800000#32 ∧ (∀ k, OpMap.default.number k ≠ opcodeField 0xFF800000#32) ∧
      conditionSet (Cond.ofCode (conditionField 0xFF800000#32)) (s0 0).flags = false) ∧
    Fetches (withIllegal .faultAlways (s0 0xFF800000#32)) 0xFF800000#32 ∧
    Fetches (withIllegal .nop (s0 0x1F800000#32)) 0x1F800000#32 :=
  ⟨⟨⟨rfl, by decide, rfl⟩, by intro k; cases k <;> decide, rfl, by decide⟩,
    ⟨⟨rfl, by decide, rfl⟩, by intro k; cases k <;> decide, by decide⟩, ⟨rfl, by decide, rfl⟩, ⟨rfl, by decide, rfl⟩⟩
/-- The seven forms whose destination is register 15. -/
theorem witness_WritesOfRegisterFifteenTransferControl :
    conditionSet .always (s0 0).flags = true ∧
    FetchesInstr (s0 0x01788000#32) (.add .always 15 1 0) ∧ FetchesInstr (s0 0x01F88000#32) (.sub .always 15 1 0) ∧
    FetchesInstr (s0 0x02788000#32) (.mul .always 15 1 0) ∧
    (FetchesInstr (s0 0x02F88000#32) (.div .always 15 1 0) ∧ (advance (s0 0x02F88000#32)).reg 0 ≠ 0) ∧
    (FetchesInstr (s0 0x00798000#32) (.ldr .always 15 3) ∧ ((advance (s0 0x00798000#32)).reg 3).toNat + 4 ≤ 2048) ∧
    FetchesInstr (s0 0x03780008#32) (.mov .always 15 8) ∧ FetchesInstr (s0 0x04F80000#32) (.sav .always 15) :=
  ⟨by decide, fetchesInstr_of rfl (by decide) rfl rfl, fetchesInstr_of rfl (by decide) rfl rfl,
    fetchesInstr_of rfl (by decide) rfl rfl, ⟨fetchesInstr_of rfl (by decide) rfl rfl, by decide⟩,
    ⟨fetchesInstr_of rfl (by decide) rfl rfl, by decide⟩, fetchesInstr_of rfl (by decide) rfl rfl,
    fetchesInstr_of rfl (by decide) rfl rfl⟩
/-- Each row of the table of causes is raised by some running state: 1, 2 and 3 by r2 = 0 and r4 = 2045. -/
theorem witness_StepStopsExactlyAsTheCauseTableSays :
    RaisedBy (s0 0x02801000#32) .divideByZero 0#32 ∧ RaisedBy (s0 0x00020000#32) .outOfBoundsLoad 2045#32 ∧
    RaisedBy (s0 0x00820000#32) .outOfBoundsStore 2045#32 ∧
    RaisedBy (withByteFetch (codeEverywhere 2045#32)) .outOfBoundsFetch 2045#32 ∧
    RaisedBy (codeEverywhere 2047#32) .fetchMisaligned 2047#32 ∧
    RaisedBy (s0 0x1F800000#32) .illegalOpcode 0x1F800000#32 ∧
    RaisedBy (withIllegal .faultAlways (s0 0xFF800000#32)) .illegalOpcode 0xFF800000#32 :=
  ⟨⟨.always, 0, 0, 2, fetchesInstr_of rfl (by decide) rfl rfl, by decide, by decide, by decide⟩,
    ⟨.always, 0, 4, fetchesInstr_of rfl (by decide) rfl rfl, by decide, by decide, by decide⟩,
    ⟨.always, 0, 4, fetchesInstr_of rfl (by decide) rfl rfl, by decide, by decide, by decide⟩,
    ⟨by decide, .inr rfl, by decide, by decide⟩, ⟨by decide, by decide, rfl, by decide⟩,
    ⟨_, ⟨rfl, by decide, rfl⟩, by intro k; cases k <;> decide, rfl, .inr ⟨rfl, by decide⟩⟩,
    ⟨_, ⟨rfl, by decide, rfl⟩, by intro k; cases k <;> decide, rfl, .inl rfl⟩⟩
/-- A stop in the body, one in the fetch, and an unassigned opcode under both settings that stop. -/
theorem witness_FatalStopsArePrecise :
    (∃ t, step (s0 0x02801000#32) = .next t ∧ t.run = .faulted) ∧
    (∃ t, step (codeEverywhere 2047#32) = .next t ∧ t.run = .faulted) ∧
    (∃ t, step (s0 0x1F800000#32) = .next t ∧ t.run = .faulted) ∧
    ∃ t, step (withIllegal .faultAlways (s0 0xFF800000#32)) = .next t ∧ t.run = .faulted :=
  ⟨⟨_, rfl, rfl⟩, ⟨_, rfl, rfl⟩, ⟨_, rfl, rfl⟩, ⟨_, rfl, rfl⟩⟩
/-- `cmp r0 r1` sets G; a host's LOAD; and under other flags the gate answers alike, for a `cmp` and for an `add`. -/
theorem witness_FlagsWrittenOnlyByCmpAndReadOnlyByTheGate :
    (∃ t, step (s0 0x03808000#32) = .next t ∧ t.flags ≠ (s0 0x03808000#32).flags ∧
      (∀ w, Fetches (s0 0x03808000#32) w → conditionSet (Cond.ofCode (conditionField w)) (flagsOf 4) =
        conditionSet (Cond.ofCode (conditionField w)) (s0 0x03808000#32).flags) ∧
      FetchesInstr (s0 0x03808000#32) (.cmp .always 0 1) ∧ conditionSet .always (s0 0x03808000#32).flags = true) ∧
    (HostMove.load [5#32] ≠ .reset ∧ ∃ t, hostStep (.load [5#32]) State.reset = .next t) ∧
    ∃ t, step (s0 0x01100800#32) = .next t ∧
      (∀ w, Fetches (s0 0x01100800#32) w → conditionSet (Cond.ofCode (conditionField w)) (flagsOf 4) =
        conditionSet (Cond.ofCode (conditionField w)) (s0 0x01100800#32).flags) ∧
      ¬ ∃ c a b, FetchesInstr (s0 0x01100800#32) (.cmp c a b) ∧ conditionSet c (s0 0x01100800#32).flags = true :=
  ⟨⟨_, rfl, by decide, fun w h => by
      have e : fetch (s0 0x03808000#32) = .ok 0x03808000#32 := rfl
      have h' := h.2.2
      rw [e] at h'; injection h' with h'; subst h'; decide, fetchesInstr_of rfl (by decide) rfl rfl, by decide⟩,
    ⟨by decide, _, rfl⟩, _, rfl, fun w h => by
      have e : fetch (s0 0x01100800#32) = .ok 0x01100800#32 := rfl
      have h' := h.2.2
      rw [e] at h'; injection h' with h'; subst h'; decide, by
      rintro ⟨c, a, b, ⟨w, h, hd⟩, -⟩
      have e : fetch (s0 0x01100800#32) = .ok 0x01100800#32 := rfl
      have h' := h.2.2
      rw [e] at h'; injection h' with h'; subst h'
      have ed : decodeWord (s0 0x01100800#32).cfg.opmap 0x01100800#32 = .ok (.add .always 2 0 1) := rfl
      rw [ed] at hd; cases hd⟩
theorem witness_OutputIsAppendOnlyAndNeverRead : (∃ t, step (s0 0x05000000#32) = .next t ∧ t.out ≠ []) ∧
    HostMove.run ≠ .reset ∧ ∃ t, hostStep .run State.reset = .next t :=
  ⟨⟨_, rfl, by decide⟩, by decide, _, rfl⟩
/-- `str r0 r3` changes the byte 2044. -/
theorem witness_MemoryWrittenOnlyByStr : ∃ t, (s0 0x00818000#32).mem.wf = true ∧ step (s0 0x00818000#32) = .next t ∧
    t.mem.read 2044 ≠ (s0 0x00818000#32).mem.read 2044 :=
  ⟨_, by decide, rfl, by decide⟩
theorem witness_CodeLengthIsLoadsAndTheHaltingTests :
    (∃ t, hostRun State.reset = .next t) ∧ (∃ t, smallest.cfg.Valid ∧ hostLoad [1#32] smallest = .next t) ∧
    (∃ t, step (s0 0x01100800#32) = .next t ∧ ((s0 0x01100800#32).pc < 1#32 ↔
      (s0 0x01100800#32).pc < (s0 0x01100800#32).codeLen)) ∧
    ∃ t, step ((s0 0).setPc 4#32) = .next t ∧ (((s0 0).setPc 4#32).pc < 4#32 ↔
      ((s0 0).setPc 4#32).pc < ((s0 0).setPc 4#32).codeLen) :=
  ⟨⟨_, rfl⟩, ⟨_, by decide, rfl⟩, ⟨_, rfl, by decide⟩, ⟨_, rfl, by decide⟩⟩
theorem witness_AdvanceNeverWraps :
    (codeEverywhere 2047#32).Inv ∧ (codeEverywhere 2047#32).pc < (codeEverywhere 2047#32).codeLen := by decide
theorem witness_AlignedFetchNeverLeavesTheCode :
    (codeEverywhere 2044#32).Inv ∧ (codeEverywhere 2044#32).run = .running ∧
      (codeEverywhere 2044#32).pc < (codeEverywhere 2044#32).codeLen ∧
      (codeEverywhere 2044#32).pc.toNat % 4 = 0 := by decide
/-- From a state with the invariant: an `add`, and a step that stops. -/
theorem witness_StepKeepsTheStateInvariant :
    (∃ t, (s0 0x01100800#32).Inv ∧ step (s0 0x01100800#32) = .next t) ∧
    ∃ t, (codeEverywhere 2047#32).Inv ∧ step (codeEverywhere 2047#32) = .next t :=
  ⟨⟨_, by decide, rfl⟩, ⟨_, by decide, rfl⟩⟩
theorem witness_HostMovesKeepTheStateInvariant :
    (State.reset.Inv ∧ flagsReachable State.reset.cfg.resetFlags = true) ∧
    (∃ t, hostStep .reset State.reset = .next t) ∧ (∃ t, hostStep (.load [5#32]) State.reset = .next t) ∧
    ∃ t, hostStep .run State.reset = .next t :=
  ⟨by decide, ⟨_, rfl⟩, ⟨_, rfl⟩, ⟨_, rfl⟩⟩
/-- In four bytes of memory one word fits and two do not; a running CORE refuses both. -/
theorem witness_LoadCopiesTheWordsOrRefuses :
    smallest.mem.wf = true ∧ smallest.run = .idle ∧ 4 * [1#32].length ≤ smallest.cfg.memSize ∧
      smallest.cfg.memSize < 4 * [1#32, 2#32].length ∧ (loaded []).run ≠ .idle := by decide
theorem witness_RunStartsOnlyFromIdle : State.reset.run = .idle ∧ (loaded []).run ≠ .idle := by decide
theorem witness_LoadedWordsAreFetched : ∃ t u, smallest.cfg.Valid ∧ smallest.mem.wf = true ∧
    hostLoad [1#32] smallest = .next t ∧ hostRun t = .next u ∧ 0 < [1#32].length :=
  ⟨_, _, by decide, by decide, rfl, rfl, by decide⟩
theorem witness_WithFetchWordIsFetchedNext : State.reset.cfg.Valid ∧ State.reset.mem.wf = true := by decide
theorem witness_HostSeesTheResultOnlyAtTheEnd :
    (halt (loaded [])).run = .halted ∧ (raise { cause := .fetchMisaligned, info := 6#32 } (loaded [])).run = .faulted ∧
      State.reset.run = .idle ∧ (loaded []).run = .running := by decide
theorem witness_DisassemblyAssemblesBack :
    Assembler.disassemble (.jmp .less 3) = some ["jmpl".toList, "r3".toList] ∧
      Assembler.disassemble (.jmp .anyFlag 3) = none := by decide

end Sys2Proof.Tests
end

section
/-! PROOFS. The frames of the shared operations, as the claims state them, and what the step does with a fetched word whose
opcode is assigned to no mnemonic (00_scope.md R5; 40_execution_cycle.md R128). -/

namespace Sys2Proof.Machine

/-! ### Frames -/

theorem setReg_onlyRegister (s : State) (r : RegIdx) (v : Word) : OnlyRegister r v s (s.setReg r v) :=
  ⟨reg_setReg_self s r v, fun _ hq => reg_setReg_of_ne s v hq, rfl, fun _ => rfl, rfl, rfl, rfl, rfl, rfl, rfl⟩

theorem advance_onlyRegister (s : State) : OnlyRegister RegIdx.pc (s.pc + 4) s (advance s) :=
  setReg_onlyRegister s RegIdx.pc (s.pc + 4)

theorem raise_stoppedWith (e : Exn) (s : State) : StoppedWith e.cause e.info s (raise e s) :=
  ⟨rfl, rfl, rfl, fun _ => rfl, rfl, fun _ => rfl, rfl, rfl, rfl⟩

/-! ### A word with an unassigned opcode -/

section
variable {s : State} {w : Word}

theorem undefinedOpcode_of_faultAlways (hp : s.cfg.illegalOpcode = .faultAlways) :
    undefinedOpcode w s = .next (raise (illegalOpcode w) s) := by
  simp [undefinedOpcode, hp]

/-- The gate reads the flags of the advanced state, which are those of `s`. -/
theorem undefinedOpcode_of_executed (hp : s.cfg.illegalOpcode = .faultIfExecuted)
    (hc : conditionSet (Cond.ofCode (conditionField w)) s.flags = true) :
    undefinedOpcode w s = .next (raise (illegalOpcode w) (advance s)) := by
  have hgate : conditionSet (Cond.ofCode (conditionField w)) (advance s).flags = true := hc
  simp [undefinedOpcode, hp, gated_of_set hgate]

theorem undefinedOpcode_of_skipped (hp : s.cfg.illegalOpcode = .faultIfExecuted)
    (hc : conditionSet (Cond.ofCode (conditionField w)) s.flags = false) :
    undefinedOpcode w s = .next (advance s) := by
  have hgate : conditionSet (Cond.ofCode (conditionField w)) (advance s).flags = false := hc
  simp [undefinedOpcode, hp, gated_of_not_set hgate]

theorem undefinedOpcode_of_nop (hp : s.cfg.illegalOpcode = .nop) : undefinedOpcode w s = .next (advance s) := by
  simp [undefinedOpcode, hp]

/-- The decoder refuses an opcode that OPMAP gives to no mnemonic (30_encoding.md R81). -/
theorem decodeWord_of_unassigned {m : OpMap} (hu : ∀ k, m.number k ≠ opcodeField w) :
    decodeWord m w = .error (.unassignedOpcode w) := by
  rcases decodeWord_cases m w with ⟨k, hk, _⟩ | ⟨_, hd⟩
  · exact absurd (OpMap.number_of_lookup hk) (hu k)
  · exact hd

/-- Of the four things a running step can do, the fetch rules out the halt and the stop at the fetch, and the opcode rules
out a decoded instruction. -/
theorem step_of_unassigned (hf : Fetches s w) (hu : ∀ k, s.cfg.opmap.number k ≠ opcodeField w) :
    step s = undefinedOpcode w s := by
  obtain ⟨hrun, hpc, hfetch⟩ := hf
  rcases step_running_cases hrun with
    ⟨hend, _⟩ | ⟨_, e, he, _⟩ | ⟨_, w', hw, _, hstep⟩ | ⟨_, w', i, hw, hd, _⟩
  · exact absurd hpc hend
  · cases hfetch.symm.trans he
  · cases hfetch.symm.trans hw
    exact hstep
  · cases hfetch.symm.trans hw
    cases (decodeWord_of_unassigned hu).symm.trans hd

end

/-- Settles O35: the step is `undefinedOpcode`, whose four outcomes are a stop before or after the advance, or the advance
alone. -/
theorem unassignedOpcodeFollowsItsParameter : Obligations.UnassignedOpcodeFollowsItsParameter := by
  intro s w hf hu
  rw [step_of_unassigned hf hu]
  refine ⟨fun hp => ?faultAlways, fun hp hc => ?executed, fun hp hc => ?skipped, fun hp => ?nop⟩
  case faultAlways =>
    exact ⟨_, undefinedOpcode_of_faultAlways hp, raise_stoppedWith (illegalOpcode w) s⟩
  case executed =>
    exact ⟨_, undefinedOpcode_of_executed hp hc, raise_stoppedWith (illegalOpcode w) (advance s)⟩
  case skipped =>
    exact ⟨_, undefinedOpcode_of_skipped hp hc, advance_onlyRegister s⟩
  case nop =>
    exact ⟨_, undefinedOpcode_of_nop hp, advance_onlyRegister s⟩

end Sys2Proof.Machine
end

section
/-! PROOFS. What a step reads and writes (10_state.md): the step as one change of the state, whose content the flags, OUT and
CODE_LEN do not enter but at the gate and at the halting test; the invariant every step keeps; who writes the flags, OUT and
CODE_LEN and who reads them. -/

namespace Sys2Proof.Machine

/-! ### What a step does with what it fetches -/

section
variable {s : State}

theorem running_of_step {t : State} (hstep : step s = .next t) : s.run = .running :=
  Decidable.byContradiction fun h => step_of_not_running h hstep

theorem step_of_atEnd (hrun : s.run = .running) (hend : ¬ s.pc < s.codeLen) : step s = .next (halt s) := by
  rcases step_running_cases hrun with ⟨_, hstep⟩ | ⟨hpc, _⟩ | ⟨hpc, _⟩ | ⟨hpc, _⟩
  · exact hstep
  all_goals exact absurd hpc hend

theorem step_of_fetch_error (hrun : s.run = .running) (hpc : s.pc < s.codeLen) {e : Exn} (hf : fetch s = .error e) :
    step s = .next (raise e s) := by
  rcases step_running_cases hrun with ⟨hend, _⟩ | ⟨_, e', he, hstep⟩ | ⟨_, w, hw, _⟩ | ⟨_, w, _, hw, _⟩
  · exact absurd hpc hend
  · cases hf.symm.trans he
    exact hstep
  · cases hf.symm.trans hw
  · cases hf.symm.trans hw

theorem step_of_fetchesInstr {i : Instr} (hi : FetchesInstr s i) : step s = exec i (advance s) := by
  obtain ⟨w, ⟨hrun, hpc, hf⟩, hd⟩ := hi
  rcases step_running_cases hrun with ⟨hend, _⟩ | ⟨_, e, he, _⟩ | ⟨_, w', hw, hl, _⟩ | ⟨_, w', i', hw, hd', hstep⟩
  · exact absurd hpc hend
  · cases hf.symm.trans he
  · cases hf.symm.trans hw
    cases (decodeWord_of_unassigned (OpMap.lookup_eq_none_iff.mp hl)).symm.trans hd
  · cases hf.symm.trans hw
    cases hd.symm.trans hd'
    exact hstep

end

/-- The gate reads the condition field, whatever the operation (30_encoding.md R73). -/
theorem cond_of_decodeWord {m : OpMap} {w : Word} {i : Instr} (hd : decodeWord m w = .ok i) :
    i.cond = Cond.ofCode (conditionField w) := by
  rcases decodeWord_cases m w with ⟨k, _, hk⟩ | ⟨_, he⟩
  · cases hd.symm.trans hk
    cases k <;> rfl
  · cases hd.symm.trans he

theorem setPc_pc_self (s : State) : s.setPc s.pc = s := by
  have hregs : (s.setPc s.pc).regs = s.regs := regs_ext fun q => by
    by_cases hq : q = RegIdx.pc <;> simp [hq, State.pc]
  calc s.setPc s.pc = { s with regs := (s.setPc s.pc).regs } := rfl
    _ = s := by rw [hregs]

/-! ### The step as a change -/

/-- What a step makes of the state, apart from the value it leaves in x[15]. -/
inductive Change where
  | nothing
  | register (r : RegIdx) (v : Word)
  | flags (f : Flags)
  | word (addr : Nat) (v : Word)
  | output (bytes : List Byte)
  | stop (e : Exn)
  | halt

/-- The state after a change, by the named operations of the model. -/
def Change.apply : Change → State → State
  | .nothing, s => s
  | .register r v, s => s.setReg r v
  | .flags f, s => { s with flags := f }
  | .word addr v, s => { s with mem := s.mem.writeWord addr v }
  | .output bytes, s => emit bytes s
  | .stop e, s => raise e s
  | .halt, s => Machine.halt s

/-- The flags after a change, `f` being those before it. -/
def Change.flagsAfter : Change → Flags → Flags
  | .flags g, _ => g
  | _, f => f

/-- The bytes a change appends to OUT. -/
def Change.appended : Change → List Byte
  | .output bytes => bytes
  | _ => []

@[simp] theorem Change.apply_flags (c : Change) (s : State) : (c.apply s).flags = c.flagsAfter s.flags := by
  cases c <;> rfl

@[simp] theorem Change.apply_out (c : Change) (s : State) : (c.apply s).out = s.out ++ c.appended := by
  cases c <;> simp [Change.apply, Change.appended]

@[simp] theorem Change.apply_codeLen (c : Change) (s : State) : (c.apply s).codeLen = s.codeLen := by
  cases c <;> rfl

/-- `s` with other flags, another OUT and another CODE_LEN: the fields no body reads. -/
def State.withUnread (s : State) (f : Flags) (out : List Byte) (n : Word) : State :=
  { s with flags := f, out := out, codeLen := n }

theorem withUnread_setPc_self (s : State) (f : Flags) (out : List Byte) (n : Word) :
    (s.withUnread f out n).setPc s.pc = s.withUnread f out n :=
  setPc_pc_self (s.withUnread f out n)

theorem Change.apply_withUnread (c : Change) (s : State) (f : Flags) (out : List Byte) (n : Word) :
    c.apply (s.withUnread f out n) = (c.apply s).withUnread (c.flagsAfter f) (out ++ c.appended) n := by
  cases c <;> simp [Change.apply, Change.flagsAfter, Change.appended, State.withUnread, emit] <;> rfl

/-- `s` fetches `i` and its gate passes. -/
def Executes (s : State) (i : Instr) : Prop :=
  FetchesInstr s i ∧ conditionSet i.cond s.flags = true

/-- The changes that can be made when the instructions in `executed` are executed and memory has `size` bytes: flags take a
`cmp`, output takes a `prn`, and a word is stored inside memory only. -/
inductive Change.MadeBy (executed : Instr → Prop) (size : Nat) : Change → Prop where
  | nothing : MadeBy executed size .nothing
  | register (r : RegIdx) (v : Word) : MadeBy executed size (.register r v)
  | compare {c : Cond} {a b : RegIdx} (h : executed (.cmp c a b)) (x y : Word) :
      MadeBy executed size (.flags (compareFlags x y))
  | store {addr : Nat} (h : addr + 4 ≤ size) (v : Word) : MadeBy executed size (.word addr v)
  | output {c : Cond} {r : RegIdx} (h : executed (.prn c r)) (v : Word) : MadeBy executed size (.output (Word.bytes v))
  | stop (e : Exn) : MadeBy executed size (.stop e)
  | halt : MadeBy executed size .halt

/-- A body makes one change, and the same one whatever OUT and CODE_LEN hold and whatever the flags, if they open the gate
alike. -/
theorem exec_change {executed : Instr → Prop} (i : Instr) (s : State)
    (hi : conditionSet i.cond s.flags = true → executed i) :
    ∃ c, Change.MadeBy executed s.cfg.memSize c ∧ ∀ f out n,
      conditionSet i.cond (s.withUnread f out n).flags = conditionSet i.cond s.flags →
      exec i (s.withUnread f out n) = .next (c.apply (s.withUnread f out n)) := by
  cases hc : conditionSet i.cond s.flags with
  | false => exact ⟨_, .nothing, fun f out n hf => exec_of_not_set hf⟩
  | true =>
    have hi := hi hc
    cases i with
    | ldr c d a =>
      rcases Nat.lt_or_ge s.cfg.memSize ((s.reg a).toNat + 4) with h | h
      · exact ⟨_, .stop ⟨.outOfBoundsLoad, s.reg a⟩, fun f out n hf => exec_ldr_outOfBounds hf h d⟩
      · exact ⟨_, .register d (s.mem.readWord (s.reg a).toNat), fun f out n hf => exec_ldr_inBounds hf h d⟩
    | str c v a =>
      rcases Nat.lt_or_ge s.cfg.memSize ((s.reg a).toNat + 4) with h | h
      · exact ⟨_, .stop ⟨.outOfBoundsStore, s.reg a⟩, fun f out n hf => exec_str_outOfBounds hf h v⟩
      · exact ⟨_, .store h (s.reg v), fun f out n hf => exec_str_inBounds hf h v⟩
    | div c d a b =>
      by_cases h : s.reg b = 0#32
      · exact ⟨_, .stop ⟨.divideByZero, s.pc - 4#32⟩, fun f out n hf => exec_div_of_zero hf h d a⟩
      · exact ⟨_, .register d (s.reg a / s.reg b), fun f out n hf => exec_div_of_ne_zero hf h d a⟩
    | add c d a b => exact ⟨_, .register d (s.reg a + s.reg b), fun f out n hf => exec_add_of_set hf d a b⟩
    | sub c d a b => exact ⟨_, .register d (s.reg a - s.reg b), fun f out n hf => exec_sub_of_set hf d a b⟩
    | mul c d a b => exact ⟨_, .register d (s.reg a * s.reg b), fun f out n hf => exec_mul_of_set hf d a b⟩
    | mov c d v => exact ⟨_, .register d (v.setWidth 32), fun f out n hf => exec_mov_of_set hf d v⟩
    | cmp c a b => exact ⟨_, .compare hi (s.reg a) (s.reg b), fun f out n hf => exec_cmp_of_set hf a b⟩
    | jmp c r => exact ⟨_, .register RegIdx.pc (s.reg r), fun f out n hf => exec_jmp_of_set hf r⟩
    | sav c d => exact ⟨_, .register d s.pc, fun f out n hf => exec_sav_of_set hf d⟩
    | prn c r => exact ⟨_, .output hi (s.reg r), fun f out n hf => exec_prn_of_set hf r⟩

/-- A word with an unassigned opcode: a stop or nothing, before or after the advance, and the same whatever OUT and CODE_LEN
hold and whatever the flags, if they open the gate alike. -/
theorem undefinedOpcode_change (executed : Instr → Prop) (w : Word) (s : State) :
    ∃ p c, Change.MadeBy executed s.cfg.memSize c ∧ ∀ f out n,
      conditionSet (Cond.ofCode (conditionField w)) f = conditionSet (Cond.ofCode (conditionField w)) s.flags →
      undefinedOpcode w (s.withUnread f out n) = .next (c.apply ((s.withUnread f out n).setPc p)) := by
  cases hp : s.cfg.illegalOpcode with
  | faultAlways =>
    refine ⟨s.pc, _, .stop (illegalOpcode w), fun f out n _ => ?_⟩
    rw [withUnread_setPc_self]
    exact undefinedOpcode_of_faultAlways hp
  | nop => exact ⟨s.pc + 4#32, _, .nothing, fun f out n _ => undefinedOpcode_of_nop hp⟩
  | faultIfExecuted =>
    cases hc : conditionSet (Cond.ofCode (conditionField w)) s.flags with
    | true => exact ⟨s.pc + 4#32, _, .stop (illegalOpcode w), fun f out n hf => undefinedOpcode_of_executed hp hf⟩
    | false => exact ⟨s.pc + 4#32, _, .nothing, fun f out n hf => undefinedOpcode_of_skipped hp hf⟩

theorem fetches_withUnread {s : State} {n : Word} (hn : s.pc < n ↔ s.pc < s.codeLen) (f : Flags) (out : List Byte)
    (w : Word) : Fetches (s.withUnread f out n) w ↔ Fetches s w :=
  and_congr_right' (and_congr_left' hn)

/-- The flags `f` answer the gate of the word that `s` fetches, if it fetches one, as the flags of `s` do. -/
def GateAlike (s : State) (f : Flags) : Prop :=
  ∀ w, Fetches s w → conditionSet (Cond.ofCode (conditionField w)) f =
    conditionSet (Cond.ofCode (conditionField w)) s.flags

theorem GateAlike.refl (s : State) : GateAlike s s.flags := fun _ _ => rfl

/-- R19, R21, R23 at once: a step leaves some value in x[15] and makes one change, and both are the same whatever OUT holds,
whatever the flags, if they open the gate of the fetched word alike, and whatever CODE_LEN, on the same side of x[15]. -/
theorem step_change {s : State} (hrun : s.run = .running) :
    ∃ p c, Change.MadeBy (Executes s) s.cfg.memSize c ∧ ∀ f out n,
      GateAlike s f → (s.pc < n ↔ s.pc < s.codeLen) →
      step (s.withUnread f out n) = .next (c.apply ((s.withUnread f out n).setPc p)) := by
  rcases step_running_cases hrun with ⟨hend, _⟩ | ⟨hpc, e, he, _⟩ | ⟨hpc, w, hw, hl, _⟩ | ⟨hpc, w, i, hw, hd, _⟩
  · refine ⟨s.pc, _, .halt, fun f out n _ hn => ?_⟩
    rw [withUnread_setPc_self]
    exact step_of_atEnd hrun (mt hn.mp hend)
  · refine ⟨s.pc, _, .stop e, fun f out n _ hn => ?_⟩
    rw [withUnread_setPc_self]
    exact step_of_fetch_error (s := s.withUnread f out n) hrun (hn.mpr hpc) he
  · have hf : Fetches s w := ⟨hrun, hpc, hw⟩
    obtain ⟨p, c, hc, hchange⟩ := undefinedOpcode_change (Executes s) w s
    refine ⟨p, c, hc, fun f out n hgate hn => ?_⟩
    rw [step_of_unassigned ((fetches_withUnread hn f out w).mpr hf) (OpMap.lookup_eq_none_iff.mp hl)]
    exact hchange f out n (hgate w hf)
  · have hf : Fetches s w := ⟨hrun, hpc, hw⟩
    obtain ⟨c, hc, hchange⟩ := exec_change (executed := Executes s) i (advance s) fun hset => ⟨⟨w, hf, hd⟩, hset⟩
    refine ⟨s.pc + 4#32, c, hc, fun f out n hgate hn => ?_⟩
    rw [step_of_fetchesInstr ⟨w, (fetches_withUnread hn f out w).mpr hf, hd⟩]
    refine hchange f out n ?_
    rw [cond_of_decodeWord hd]
    exact hgate w hf

/-- The step from `s` to `t` makes the change `c`, and makes it from every state that it cannot tell from `s`. -/
structure StepMakes (c : Change) (s t : State) : Prop where
  madeBy : c.MadeBy (Executes s) s.cfg.memSize
  result : ∃ p, t = c.apply (s.setPc p)
  flags : t.flags = c.flagsAfter s.flags
  out : t.out = s.out ++ c.appended
  codeLen : t.codeLen = s.codeLen
  unread : ∀ f out n, GateAlike s f → (s.pc < n ↔ s.pc < s.codeLen) →
    step (s.withUnread f out n) = .next (t.withUnread (c.flagsAfter f) (out ++ c.appended) n)

theorem change_of_step {s t : State} (hstep : step s = .next t) : ∃ c, StepMakes c s t := by
  obtain ⟨p, c, hc, hchange⟩ := step_change (running_of_step hstep)
  have ht : t = c.apply (s.setPc p) := by
    cases hstep.symm.trans (hchange s.flags s.out s.codeLen (GateAlike.refl s) Iff.rfl)
    rfl
  refine ⟨c, hc, ⟨p, ht⟩, by simp [ht], by simp [ht], by simp [ht], fun f out n hgate hn => ?_⟩
  rw [hchange f out n hgate hn, ht, ← Change.apply_withUnread]
  rfl

/-! ### The invariant -/

/-- At most one of `=`, `>`, `<` holds between two numbers (10_state.md R20). -/
theorem compareFlags_reachable (x y : Word) : flagsReachable (compareFlags x y) = true := by
  simp only [flagsReachable, compareFlags, BitVec.toNat_eq, BitVec.lt_def]
  rcases Nat.lt_trichotomy x.toNat y.toNat with h | h | h
  · simp [h, h.ne, h.not_gt]
  · simp [h]
  · simp [h, h.ne', h.not_gt]

theorem setPc_inv {s : State} (h : s.Inv) (p : Word) : (s.setPc p).Inv := h

/-- A change made in a running state keeps the invariant. -/
theorem Change.MadeBy.apply_inv {executed : Instr → Prop} {s : State} {c : Change} (hc : c.MadeBy executed s.cfg.memSize)
    (h : s.Inv) (hrun : s.run = .running) : (c.apply s).Inv := by
  have ⟨hcfg, hwf, hwithin, hmod, hlen, hflags, hout, hcause, hinfo⟩ := h
  cases hc with
  | nothing => exact h
  | register r v => exact h
  | compare _ x y => exact ⟨hcfg, hwf, hwithin, hmod, hlen, compareFlags_reachable x y, hout, hcause, hinfo⟩
  | store ha v =>
    exact ⟨hcfg, Memory.writeWord_wf hwf _ v, Memory.writeWord_within hwithin ha v, hmod, hlen, hflags, hout, hcause,
      hinfo⟩
  | output _ v =>
    have hout' : (s.out ++ Word.bytes v).length % 4 = 0 := by simpa [Word.bytes] using hout
    exact ⟨hcfg, hwf, hwithin, hmod, hlen, hflags, hout', hcause, hinfo⟩
  | stop e =>
    exact ⟨hcfg, hwf, hwithin, hmod, hlen, hflags, hout, iff_of_true rfl rfl, iff_of_true rfl rfl⟩
  | halt =>
    have hcause' : ¬ s.cause.isSome = true := by simp [hcause, hrun]
    have hinfo' : ¬ s.info.isSome = true := by simp [hinfo, hrun]
    exact ⟨hcfg, hwf, hwithin, hmod, hlen, hflags, hout, iff_of_false hcause' nofun, iff_of_false hinfo' nofun⟩

/-- Settles O46: the value left in x[15] does not enter the invariant, and each change keeps it. -/
theorem stepKeepsTheStateInvariant : Obligations.StepKeepsTheStateInvariant := by
  intro s t hinv hstep
  obtain ⟨c, hc⟩ := change_of_step hstep
  obtain ⟨p, rfl⟩ := hc.result
  have hrun : (s.setPc p).run = .running := (setPc_run s p).trans (running_of_step hstep)
  exact hc.madeBy.apply_inv (s := s.setPc p) (setPc_inv hinv p) hrun

/-- Settles O44: CODE_LEN is a multiple of 4 below 2^32, so at most 2^32 - 4, and x[15] is below it. -/
theorem advanceNeverWraps : Obligations.AdvanceNeverWraps := by
  intro s hinv hpc
  obtain ⟨_, _, _, hmod, _⟩ := hinv
  have hlt : s.pc.toNat < s.codeLen.toNat := hpc
  have hword := s.codeLen.isLt
  have hadvance : (advance s).pc.toNat = s.pc.toNat + 4 := by
    rw [pc_advance, BitVec.toNat_add_of_lt (by simp only [BitVec.toNat_ofNat]; omega)]
    rfl
  exact ⟨hadvance, by omega⟩

/-! ### The host's moves -/

/-- What an accepted LOAD does: its words fit memory (70_reset_and_hazards.md R271). -/
theorem hostLoad_next {words : List Word} {s t : State} (h : hostLoad words s = .next t) :
    4 * words.length ≤ s.cfg.memSize ∧
      t = { s with mem := s.mem.writeWords 0 words, codeLen := BitVec.ofNat 32 (4 * words.length) } := by
  unfold hostLoad at h
  split_ifs at h with hidle hlong
  cases h
  exact ⟨Nat.le_of_not_lt hlong, rfl⟩

theorem hostRun_next {s t : State} (h : hostRun s = .next t) : t = { s with run := .running } := by
  unfold hostRun at h
  split_ifs at h with hidle
  cases h
  rfl

/-- LOAD and RUN write neither the flags nor OUT (70_reset_and_hazards.md R271, R272). -/
theorem hostStep_keeps {move : HostMove} {s t : State} (hmove : move ≠ .reset) (h : hostStep move s = .next t) :
    t.flags = s.flags ∧ t.out = s.out := by
  cases move with
  | reset => exact absurd rfl hmove
  | load words =>
    obtain ⟨_, rfl⟩ := hostLoad_next h
    exact ⟨rfl, rfl⟩
  | run =>
    cases hostRun_next h
    exact ⟨rfl, rfl⟩

/-! ### Flags -/

/-- A change other than that of an executed `cmp` leaves the flags as they are. -/
theorem Change.MadeBy.flagsAfter_eq {executed : Instr → Prop} {size : Nat} {c : Change} (hc : c.MadeBy executed size)
    (hcmp : ¬ ∃ k a b, executed (.cmp k a b)) (f : Flags) : c.flagsAfter f = f := by
  cases hc with
  | compare h x y => exact absurd ⟨_, _, _, h⟩ hcmp
  | _ => rfl

/-- An executed `cmp` overwrites the flags, so those before it are forgotten if the gate still passes. -/
theorem step_cmp_forgets_flags {s : State} {c : Cond} {a b : RegIdx} {f : Flags} (hi : FetchesInstr s (.cmp c a b))
    (hc : conditionSet c s.flags = true) (hf : conditionSet c f = true) : step { s with flags := f } = step s := by
  have hi' : FetchesInstr { s with flags := f } (.cmp c a b) := hi
  rw [step_of_fetchesInstr hi, step_of_fetchesInstr hi', exec_cmp_of_set (s := advance s) hc,
    exec_cmp_of_set (s := advance { s with flags := f }) hf]
  rfl

/-- Settles O40: the change a step makes is one of the flags only when a `cmp` is executed, and it does not depend on the flags
beyond the gate. -/
theorem flagsWrittenOnlyByCmpAndReadOnlyByTheGate : Obligations.FlagsWrittenOnlyByCmpAndReadOnlyByTheGate := by
  refine ⟨fun s t hstep hne => ?written, fun move s t hmove h => (hostStep_keeps hmove h).1,
    fun s t f hstep hgate => ⟨fun hcmp => ?overwritten, fun hcmp => ?kept⟩⟩
  case written =>
    obtain ⟨c, hc⟩ := change_of_step hstep
    by_contra hcmp
    exact hne (hc.flags.trans (hc.madeBy.flagsAfter_eq hcmp s.flags))
  case overwritten =>
    obtain ⟨c, a, b, ⟨w, hw, hd⟩, hset⟩ := hcmp
    have hcond : c = Cond.ofCode (conditionField w) := cond_of_decodeWord hd
    have hset' : conditionSet c f = true := by rw [hcond, hgate w hw, ← hcond, hset]
    rw [step_cmp_forgets_flags ⟨w, hw, hd⟩ hset hset', hstep]
  case kept =>
    obtain ⟨c, hc⟩ := change_of_step hstep
    calc step { s with flags := f }
        = .next (t.withUnread (c.flagsAfter f) (s.out ++ c.appended) s.codeLen) :=
          hc.unread f s.out s.codeLen hgate Iff.rfl
      _ = .next { t with flags := f } := by
          rw [hc.madeBy.flagsAfter_eq hcmp, ← hc.out, ← hc.codeLen]
          rfl

/-! ### Output -/

/-- Only an executed `prn` appends. -/
theorem Change.MadeBy.prn_of_appended {executed : Instr → Prop} {size : Nat} {c : Change} (hc : c.MadeBy executed size)
    (h : c.appended ≠ []) : ∃ k r, executed (.prn k r) := by
  cases hc with
  | output hprn v => exact ⟨_, _, hprn⟩
  | _ => exact absurd rfl h

/-- Settles O41: the bytes are those of the change the step makes, which does not depend on OUT. -/
theorem outputIsAppendOnlyAndNeverRead : Obligations.OutputIsAppendOnlyAndNeverRead := by
  refine ⟨fun _ => rfl, fun move s t hmove h => (hostStep_keeps hmove h).2, fun s t hstep => ?_⟩
  obtain ⟨c, hc⟩ := change_of_step hstep
  refine ⟨c.appended, hc.out, hc.madeBy.prn_of_appended, fun before => ?_⟩
  calc step { s with out := before }
      = .next (t.withUnread (c.flagsAfter s.flags) (before ++ c.appended) s.codeLen) :=
        hc.unread s.flags before s.codeLen (GateAlike.refl s) Iff.rfl
    _ = .next { t with out := before ++ c.appended } := by
        rw [← hc.flags, ← hc.codeLen]
        rfl

/-! ### CODE_LEN -/

/-- The byte length of a program that fits memory is a 32-bit number (00_scope.md R2). -/
theorem codeLen_of_hostLoad {s t : State} {words : List Word} (hvalid : s.cfg.Valid) (h : hostLoad words s = .next t) :
    t.codeLen.toNat = 4 * words.length := by
  obtain ⟨hfits, rfl⟩ := hostLoad_next h
  obtain ⟨_, hsize, _⟩ := hvalid
  exact (BitVec.toNat_ofNat _ _).trans (Nat.mod_eq_of_lt (by omega))

/-- Settles O43: no change writes CODE_LEN, and the change a step makes depends on it only through the halting test. -/
theorem codeLengthIsLoadsAndTheHaltingTests : Obligations.CodeLengthIsLoadsAndTheHaltingTests := by
  refine ⟨fun _ => rfl, fun s t hstep => ?step, fun s t h => ?run, fun s t words hvalid h => ?load,
    fun s t n hstep hn => ?read⟩
  case step =>
    obtain ⟨c, hc⟩ := change_of_step hstep
    exact hc.codeLen
  case run => rw [hostRun_next h]
  case load =>
    have hlen := codeLen_of_hostLoad hvalid h
    exact ⟨hlen, by omega⟩
  case read =>
    obtain ⟨c, hc⟩ := change_of_step hstep
    calc step { s with codeLen := n }
        = .next (t.withUnread (c.flagsAfter s.flags) (s.out ++ c.appended) n) :=
          hc.unread s.flags s.out n (GateAlike.refl s) hn
      _ = .next { t with codeLen := n } := by
          rw [← hc.flags, ← hc.out]
          rfl

/-! ### Reset -/

/-- x[15] is 0 after RESET, whatever the parameters (10_state.md R31). -/
theorem pc_resetOf (cfg : Config) : (State.resetOf cfg).pc = 0 :=
  Vector.getElem_push_eq

theorem reg_resetOf (cfg : Config) {r : RegIdx} (h : r.toNat < 15) : (State.resetOf cfg).reg r = cfg.resetRegs[r.toNat] :=
  Vector.getElem_push_lt h

/-- Settles O47. -/
theorem resetMeetsTheStateInvariant : Obligations.ResetMeetsTheStateInvariant := by
  have hvalid : Config.default.Valid := by decide
  exact ⟨hvalid, rfl, rfl, rfl, Nat.zero_le _, rfl, rfl, iff_of_false nofun nofun, iff_of_false nofun nofun⟩

/-- Settles O49: x[15] is 0 whatever the parameters, the other registers because RESET_REGS is 0 by default. -/
theorem resetValuesAreAsTabled : Obligations.ResetValuesAreAsTabled := by
  refine ⟨fun r => ?_, rfl, fun _ => rfl, rfl, rfl, rfl, rfl, rfl, rfl⟩
  by_cases hr : r.toNat < 15
  · rw [State.reset, reg_resetOf _ hr]
    exact Vector.getElem_replicate hr
  · have hpc : r = RegIdx.pc := BitVec.eq_of_toNat_eq (show r.toNat = 15 by have := r.isLt; omega)
    rw [hpc]
    exact pc_resetOf Config.default

/-- Settles O50. -/
theorem resetForgetsTheOldState : Obligations.ResetForgetsTheOldState := fun s =>
  ⟨State.resetOf s.cfg, rfl, pc_resetOf s.cfg, fun _ h => reg_resetOf s.cfg h, rfl, rfl, rfl, rfl, rfl, rfl, rfl, rfl⟩

end Sys2Proof.Machine
end

section
/-! PROOFS. Memory (20_memory.md): what a read gives and a write stores inside memory and outside it, the fetch of an aligned
and of a misaligned program counter, the fetch after a store, and that memory is written by `str` alone. -/

namespace Sys2Proof

/-- Byte `k` of the four that a word written at `a` leaves there, as a number (20_memory.md R45). -/
theorem Memory.toNat_read_writeWord {m : Memory} (h : m.wf = true) (a : Nat) (v : Word) {k : Nat} (hk : k < 4) :
    ((m.writeWord a v).read (a + k)).toNat = v.toNat / 2 ^ (8 * k) % 2 ^ 8 := by
  have hinside : a ≤ a + k ∧ a + k < a + 4 := by omega
  rw [Memory.read_writeWord h, if_pos hinside, Nat.add_sub_cancel_left, Word.toNat_byte]

end Sys2Proof

namespace Sys2Proof.Machine

/-! ### Reads and writes -/

theorem withMem_sameButMemory (s : State) (m : Memory) : SameButMemory s { s with mem := m } :=
  ⟨fun _ => rfl, rfl, rfl, rfl, rfl, rfl, rfl, rfl⟩

/-- Settles O13: inside memory the read gives the word of the four bytes, outside it the exception of its kind. -/
theorem memReadIsLittleEndianOrOutOfBounds : Obligations.MemReadIsLittleEndianOrOutOfBounds := by
  intro kind addr s
  refine ⟨fun hin => ⟨_, memRead_of_inBounds hin kind, Word.toNat_ofBytes ..⟩, fun hout => ?_⟩
  rw [memRead_of_outOfBounds hout]
  cases kind <;> rfl

/-- Settles O14: inside memory the write is `Memory.writeWord`, whose reads the laws of memory give; outside it there is no
state after it. -/
theorem memWriteStoresFourBytesOrNone : Obligations.MemWriteStoresFourBytesOrNone := by
  intro addr v s hwf
  refine ⟨fun hin => ⟨_, memWrite_of_inBounds hin v, ?bytes, ?others, ?canonical, ?frame⟩,
    fun hout => memWrite_of_outOfBounds hout v⟩
  case bytes => exact fun k hk => Memory.toNat_read_writeWord hwf addr.toNat v hk
  case others => exact fun x hx => Memory.read_writeWord_of_outside hwf v hx
  case canonical => exact Memory.writeWord_wf hwf addr.toNat v
  case frame => exact withMem_sameButMemory s _

/-! ### The fetch -/

section
variable {s : State}

/-- R48: under `fault` a misaligned program counter is no address to fetch from, wherever it points. -/
theorem fetch_of_misaligned (hmis : s.pc.toNat % 4 ≠ 0) (hp : s.cfg.fetchMisaligned = .fault) :
    fetch s = .error { cause := .fetchMisaligned, info := s.pc } := by
  rcases fetch_cases s with ⟨_, _, hf⟩ | ⟨hallowed, _⟩ | ⟨hallowed, _⟩
  · exact hf
  all_goals simp [hmis, hp] at hallowed

/-- A program counter that may be fetched from gives the four bytes there, if they lie inside memory. -/
theorem fetch_of_inBounds (hallowed : s.pc.toNat % 4 = 0 ∨ s.cfg.fetchMisaligned = .byteFetch)
    (hin : s.pc.toNat + 4 ≤ s.cfg.memSize) : fetch s = .ok (s.mem.readWord s.pc.toNat) := by
  rcases fetch_cases s with ⟨hmis, hp, _⟩ | ⟨_, hout, _⟩ | ⟨_, _, hf⟩
  · simp [hmis, hp] at hallowed
  · exact absurd hin (Nat.not_le_of_lt hout)
  · exact hf

end

/-- Settles O33: under `fault` the fetch fails and the step records it; under `byte_fetch` the fetch is the one of an aligned
program counter. -/
theorem misalignedFetchFollowsItsParameter : Obligations.MisalignedFetchFollowsItsParameter := by
  intro s hrun hpc hmis
  refine ⟨fun hp => ?fault, fun hp hin => ?byteFetch⟩
  case fault =>
    exact ⟨_, step_of_fetch_error hrun hpc (fetch_of_misaligned hmis hp), raise_stoppedWith _ s⟩
  case byteFetch => exact ⟨hrun, hpc, fetch_of_inBounds (.inr hp) hin⟩

/-- Settles O16: the store leaves RUN, x[15] and CODE_LEN, so the next fetch is made, and it reads the word just written. -/
theorem storeIsSeenByTheNextFetch : Obligations.StoreIsSeenByTheNextFetch := by
  intro s t c valReg addrReg hwf hrun hset haddr hpc halign hin hexec
  have hstore := exec_str_inBounds hset (haddr ▸ hin) valReg
  rw [haddr] at hstore
  cases hexec.symm.trans hstore
  have hfetch := fetch_of_inBounds (s := { s with mem := s.mem.writeWord s.pc.toNat (s.reg valReg) }) (.inl halign) hin
  exact ⟨hrun, hpc, hfetch.trans (congrArg Except.ok (Memory.readWord_writeWord hwf s.pc.toNat (s.reg valReg)))⟩

/-! ### Who writes memory -/

section
variable {s t : State}

/-- An unassigned opcode stops, advances or both: it stores nothing. -/
theorem mem_of_undefinedOpcode {w : Word} (h : undefinedOpcode w s = .next t) : t.mem = s.mem := by
  cases hp : s.cfg.illegalOpcode with
  | faultAlways =>
    cases h.symm.trans (undefinedOpcode_of_faultAlways hp)
    rfl
  | nop =>
    cases h.symm.trans (undefinedOpcode_of_nop hp)
    rfl
  | faultIfExecuted =>
    cases hc : conditionSet (Cond.ofCode (conditionField w)) s.flags with
    | true =>
      cases h.symm.trans (undefinedOpcode_of_executed hp hc)
      rfl
    | false =>
      cases h.symm.trans (undefinedOpcode_of_skipped hp hc)
      rfl

/-- Of all that a running step can do, only the body of a fetched instruction can write memory. -/
theorem exec_of_step_mem_ne (hstep : step s = .next t) (hne : t.mem ≠ s.mem) :
    ∃ i, FetchesInstr s i ∧ exec i (advance s) = .next t := by
  have hrun := running_of_step hstep
  rcases step_running_cases hrun with
    ⟨_, hhalt⟩ | ⟨_, e, _, hstop⟩ | ⟨_, w, _, _, hundef⟩ | ⟨hpc, w, i, hw, hd, hexec⟩
  · cases hstep.symm.trans hhalt
    exact absurd rfl hne
  · cases hstep.symm.trans hstop
    exact absurd rfl hne
  · exact absurd (mem_of_undefinedOpcode (hundef.symm.trans hstep)) hne
  · exact ⟨i, ⟨w, ⟨hrun, hpc, hw⟩, hd⟩, hexec.symm.trans hstep⟩

/-- Of all bodies, only that of a `str` whose gate passes and whose four bytes lie inside memory writes memory. -/
theorem str_of_exec_mem_ne {i : Instr} (hexec : exec i s = .next t) (hne : t.mem ≠ s.mem) :
    ∃ c v a, i = .str c v a ∧ conditionSet c s.flags = true ∧ (s.reg a).toNat + 4 ≤ s.cfg.memSize ∧
      t.mem = s.mem.writeWord (s.reg a).toNat (s.reg v) := by
  rcases exec_cases i s with ⟨_, hskip⟩ | ⟨hset, t', hbody, heffect⟩
  · cases hexec.symm.trans hskip
    exact absurd rfl hne
  · cases hexec.symm.trans hbody
    cases heffect with
    | store c v a hi hin =>
      subst hi
      exact ⟨c, v, a, rfl, hset, hin, rfl⟩
    | _ => exact absurd rfl hne

end

/-- Settles O42: the step ran a `str`, and a word written changes no byte outside its four. -/
theorem memoryWrittenOnlyByStr : Obligations.MemoryWrittenOnlyByStr := by
  intro s t x hwf hstep hread
  have hne : t.mem ≠ s.mem := fun h => hread (by rw [h])
  obtain ⟨_, hi, hexec⟩ := exec_of_step_mem_ne hstep hne
  obtain ⟨c, v, a, rfl, hset, hin, hmem⟩ := str_of_exec_mem_ne hexec hne
  have hinside : ¬ (x < ((advance s).reg a).toNat ∨ ((advance s).reg a).toNat + 4 ≤ x) := fun hx =>
    hread (hmem ▸ Memory.read_writeWord_of_outside hwf _ hx)
  exact ⟨c, v, a, hi, hset, by omega, by omega, hin⟩

end Sys2Proof.Machine
end

section
/-! PROOFS. The codec (30_encoding.md): the word of any instruction as one layout, the bits each format looks at, decode and
encode against each other on instructions, on words and on tuples of numbers, and composition beyond the fields. -/

namespace Sys2Proof

/-! ### The fields as numbers -/

/-- Settles O1: a slice is a shift and a remainder, and a remainder is below its modulus. -/
theorem extractedFieldsAreWordSlices : Obligations.ExtractedFieldsAreWordSlices := by
  intro w
  have slice (start len : Nat) : (w.extractLsb' start len).toNat = w.toNat / 2 ^ start % 2 ^ len := by
    rw [BitVec.extractLsb'_toNat, Nat.shiftRight_eq_div_pow]
  refine ⟨slice 23 6, Nat.le_of_lt_succ (opcodeField w).isLt, slice 29 3, Nat.le_of_lt_succ (conditionField w).isLt,
    slice 19 4, slice 15 4, slice 11 4, fun slot => ⟨slice _ 4, Nat.le_of_lt_succ (registerField w slot).isLt, ?_⟩⟩
  calc (immediateValue w slot).toNat = w.toNat / 2 ^ 0 % 2 ^ (23 - 4 * slot.val) := slice 0 _
    _ = w.toNat % 2 ^ (23 - 4 * slot.val) := by rw [Nat.pow_zero, Nat.div_one]

theorem toNat_append_eq_add {m n : Nat} (x : BitVec m) (y : BitVec n) : (x ++ y).toNat = x.toNat * 2 ^ n + y.toNat := by
  rw [BitVec.toNat_append, ← Nat.shiftLeft_add_eq_or_of_lt y.isLt, Nat.shiftLeft_eq]

theorem toNat_layout (c : BitVec 3) (op : BitVec 6) (d : RegIdx) (low : BitVec 19) :
    (layout c op d low).toNat = c.toNat * 2 ^ 29 + op.toNat * 2 ^ 23 + d.toNat * 2 ^ 19 + low.toNat := by
  simp only [layout, toNat_append_eq_add]
  omega

theorem toNat_lowR3 (a b : RegIdx) : (lowR3 a b).toNat = a.toNat * 2 ^ 15 + b.toNat * 2 ^ 11 := by
  simp only [lowR3, toNat_append_eq_add, BitVec.toNat_zero]
  omega

theorem toNat_lowR2 (a : RegIdx) : (lowR2 a).toNat = a.toNat * 2 ^ 15 := by
  calc (lowR2 a).toNat = a.toNat * 2 ^ 15 + (0#15).toNat := toNat_append_eq_add a 0#15
    _ = a.toNat * 2 ^ 15 := by rw [BitVec.toNat_zero, Nat.add_zero]

/-! ### The word of an instruction -/

/-- The register in slot 0, which every format has (30_encoding.md R78). -/
def Instr.first : Instr → RegIdx
  | .ldr _ r _ | .str _ r _ | .cmp _ r _ => r
  | .add _ r _ _ | .sub _ r _ _ | .mul _ r _ _ | .div _ r _ _ => r
  | .mov _ r _ => r
  | .jmp _ r | .sav _ r | .prn _ r => r

/-- What the operands after slot 0 put into the low 19 bits. -/
def Instr.low : Instr → BitVec 19
  | .ldr _ _ a | .str _ _ a | .cmp _ _ a => lowR2 a
  | .add _ _ a b | .sub _ _ a b | .mul _ _ a b | .div _ _ a b => lowR3 a b
  | .mov _ _ v => v
  | .jmp _ _ | .sav _ _ | .prn _ _ => 0#19

theorem encode_eq_layout (m : OpMap) (i : Instr) :
    encode m i = layout i.cond.code (m.number i.mnemonic) i.first i.low := by
  cases i with
  | ldr | str | cmp => exact compose_r2 ..
  | add | sub | mul | div => exact compose_r3 ..
  | mov => exact compose_ri ..
  | jmp | sav | prn => exact compose_r1 ..

theorem toNat_encode (m : OpMap) (i : Instr) :
    (encode m i).toNat =
      i.cond.code.toNat * 2 ^ 29 + (m.number i.mnemonic).toNat * 2 ^ 23 + i.first.toNat * 2 ^ 19 + i.low.toNat := by
  rw [encode_eq_layout, toNat_layout]

/-- Settles O3: the word is a layout, whose low bits are those of the format's further operands. -/
theorem encodedWordsAreLaidOutAsTabled : Obligations.EncodedWordsAreLaidOutAsTabled := by
  intro c d a b k
  simp [toNat_encode, Instr.first, Instr.low, Instr.cond, Instr.mnemonic, OpMap.number, OpMap.default, toNat_lowR2,
    toNat_lowR3, Nat.add_assoc]

/-! ### Decode after encode -/

theorem fieldsOfEncoding (i : Instr) : Laws.FieldsOfEncoding.Statement i := by
  cases i with
  | ldr c d a => exact Laws.FieldsOfEncoding.ldr c d a
  | str c v a => exact Laws.FieldsOfEncoding.str c v a
  | add c d a b => exact Laws.FieldsOfEncoding.add c d a b
  | sub c d a b => exact Laws.FieldsOfEncoding.sub c d a b
  | mul c d a b => exact Laws.FieldsOfEncoding.mul c d a b
  | div c d a b => exact Laws.FieldsOfEncoding.div c d a b
  | mov c d v => exact Laws.FieldsOfEncoding.mov c d v
  | cmp c a b => exact Laws.FieldsOfEncoding.cmp c a b
  | jmp c r => exact Laws.FieldsOfEncoding.jmp c r
  | sav c d => exact Laws.FieldsOfEncoding.sav c d
  | prn c r => exact Laws.FieldsOfEncoding.prn c r

theorem decodeWord_of_lookup {m : OpMap} {w : Word} {k : Mnemonic} (h : m.lookup (opcodeField w) = some k) :
    decodeWord m w = .ok (instrOf k w) := by
  rcases decodeWord_cases m w with ⟨j, hj, hd⟩ | ⟨hnone, _⟩
  · cases h.symm.trans hj
    exact hd
  · cases h.symm.trans hnone

theorem decodeWord_eq_ok_iff {m : OpMap} {w : Word} {i : Instr} :
    decodeWord m w = .ok i ↔ ∃ k, m.lookup (opcodeField w) = some k ∧ i = instrOf k w := by
  refine ⟨fun h => ?_, fun ⟨k, hk, hi⟩ => hi ▸ decodeWord_of_lookup hk⟩
  rcases decodeWord_cases m w with ⟨k, hk, hd⟩ | ⟨_, he⟩
  · cases h.symm.trans hd
    exact ⟨k, hk, rfl⟩
  · cases h.symm.trans he

theorem decodeWord_encode {m : OpMap} (h : m.Distinct) (i : Instr) : decodeWord m (encode m i) = .ok i := by
  obtain ⟨hop, _, hi⟩ := fieldsOfEncoding i m
  exact decodeWord_eq_ok_iff.mpr ⟨i.mnemonic, hop ▸ OpMap.lookup_number h i.mnemonic, hi.symm⟩

/-- Settles O4: the opcode field looks up to the instruction's own operation, whose fields hold its operands. -/
theorem decodeOfEncodeIsTheInstruction : Obligations.DecodeOfEncodeIsTheInstruction :=
  fun _ hdistinct i => decodeWord_encode hdistinct i

/-! ### The round trip on tuples of numbers -/

theorem exists_bitVec_toNat {w n : Nat} (h : n < 2 ^ w) : ∃ x : BitVec w, n = x.toNat :=
  ⟨BitVec.ofNatLT n h, rfl⟩

/-- The operand lists of a format whose registers and literal have the width of their field (30_encoding.md R78, R86). -/
inductive OperandsOf : Format → List RawOperand → Prop where
  | r3 (d a b : RegIdx) : OperandsOf .r3 [.reg 0 d.toNat, .reg 1 a.toNat, .reg 2 b.toNat]
  | r2 (a b : RegIdx) : OperandsOf .r2 [.reg 0 a.toNat, .reg 1 b.toNat]
  | r1 (a : RegIdx) : OperandsOf .r1 [.reg 0 a.toNat]
  | ri (d : RegIdx) (v : BitVec 19) : OperandsOf .ri [.reg 0 d.toNat, .lit v.toNat]

theorem operandsOf_of_fit {f : Format} {ops : List RawOperand} (h : RawOperand.fit f ops = true) : OperandsOf f ops := by
  have reg {n : Nat} (hn : n < 16) : ∃ r : RegIdx, n = r.toNat := exists_bitVec_toNat hn
  have lit {n : Nat} (hn : n < 2 ^ 19) : ∃ v : BitVec 19, n = v.toNat := exists_bitVec_toNat hn
  unfold RawOperand.fit at h
  split at h
  next d a b =>
    simp only [Bool.and_eq_true, decide_eq_true_eq] at h
    obtain ⟨⟨hd, ha⟩, hb⟩ := h
    obtain ⟨d, rfl⟩ := reg hd
    obtain ⟨a, rfl⟩ := reg ha
    obtain ⟨b, rfl⟩ := reg hb
    exact .r3 d a b
  next a b =>
    simp only [Bool.and_eq_true, decide_eq_true_eq] at h
    obtain ⟨ha, hb⟩ := h
    obtain ⟨a, rfl⟩ := reg ha
    obtain ⟨b, rfl⟩ := reg hb
    exact .r2 a b
  next a =>
    obtain ⟨a, rfl⟩ := reg (of_decide_eq_true h)
    exact .r1 a
  next d v =>
    simp only [Bool.and_eq_true, decide_eq_true_eq] at h
    obtain ⟨hd, hv⟩ := h
    obtain ⟨d, rfl⟩ := reg hd
    obtain ⟨v, rfl⟩ := lit hv
    exact .ri d v
  next => cases h

theorem fit_of_operandsOf {f : Format} {ops : List RawOperand} (h : OperandsOf f ops) : RawOperand.fit f ops = true := by
  have reg (r : RegIdx) : r.toNat < 16 := r.isLt
  cases h with
  | r3 d a b => simp [RawOperand.fit, reg]
  | r2 a b => simp [RawOperand.fit, reg]
  | r1 a => simp [RawOperand.fit, reg]
  | ri d v => simpa [RawOperand.fit, reg] using v.isLt

theorem operandsOf_rawOperands (i : Instr) : OperandsOf i.mnemonic.format i.rawOperands := by
  cases i with
  | ldr | str | cmp => exact .r2 ..
  | add | sub | mul | div => exact .r3 ..
  | mov => exact .ri ..
  | jmp | sav | prn => exact .r1 ..

/-- Operands of the format of an operation are those of an instruction. -/
theorem exists_instr_of_operandsOf {k : Mnemonic} {ops : List RawOperand} (h : OperandsOf k.format ops) (c : Cond) :
    ∃ i : Instr, i.mnemonic = k ∧ i.cond = c ∧ i.rawOperands = ops := by
  cases k with
  | ldr => cases h with | r2 d a => exact ⟨.ldr c d a, rfl, rfl, rfl⟩
  | str => cases h with | r2 v a => exact ⟨.str c v a, rfl, rfl, rfl⟩
  | add => cases h with | r3 d a b => exact ⟨.add c d a b, rfl, rfl, rfl⟩
  | sub => cases h with | r3 d a b => exact ⟨.sub c d a b, rfl, rfl, rfl⟩
  | mul => cases h with | r3 d a b => exact ⟨.mul c d a b, rfl, rfl, rfl⟩
  | div => cases h with | r3 d a b => exact ⟨.div c d a b, rfl, rfl, rfl⟩
  | mov => cases h with | ri d v => exact ⟨.mov c d v, rfl, rfl, rfl⟩
  | cmp => cases h with | r2 a b => exact ⟨.cmp c a b, rfl, rfl, rfl⟩
  | jmp => cases h with | r1 r => exact ⟨.jmp c r, rfl, rfl, rfl⟩
  | sav => cases h with | r1 d => exact ⟨.sav c d, rfl, rfl, rfl⟩
  | prn => cases h with | r1 r => exact ⟨.prn c r, rfl, rfl, rfl⟩

theorem legal_iff_exists_fit {m : OpMap} {q : RawInstr} :
    q.legal m = true ↔
      q.cond < 8 ∧ ∃ k, q.opcode = (m.number k).toNat ∧ RawOperand.fit k.format q.operands = true := by
  simp [RawInstr.legal, Mnemonic.mem_all]

/-- The legal tuples are those of the instructions (30_encoding.md R86). -/
theorem legal_iff_exists_toRaw {m : OpMap} {q : RawInstr} : q.legal m = true ↔ ∃ i : Instr, q = i.toRaw m := by
  obtain ⟨op, cond, ops⟩ := q
  rw [legal_iff_exists_fit]
  constructor
  · rintro ⟨hcond, k, rfl, hfit⟩
    obtain ⟨c, rfl⟩ : ∃ c : BitVec 3, cond = c.toNat := exists_bitVec_toNat hcond
    obtain ⟨i, rfl, hi, rfl⟩ := exists_instr_of_operandsOf (operandsOf_of_fit hfit) (Cond.ofCode c)
    exact ⟨i, by rw [Instr.toRaw, hi, Cond.code_ofCode]⟩
  · rintro ⟨i, hq⟩
    cases hq
    exact ⟨i.cond.code.isLt, i.mnemonic, rfl, fit_of_operandsOf (operandsOf_rawOperands i)⟩

/-- What `decodeRaw` answers is the tuple of an instruction; the tuple of an instruction comes back because it is composed to
the word of that instruction. -/
theorem decodeRaw_compose_iff {m : OpMap} (h : m.Distinct) (q : RawInstr) :
    decodeRaw m (compose q) = .ok q ↔ ∃ i : Instr, q = i.toRaw m := by
  constructor
  · intro hq
    unfold decodeRaw at hq
    split at hq
    next i _ =>
      cases hq
      exact ⟨i, rfl⟩
    next => cases hq
  · rintro ⟨i, rfl⟩
    have hd : decodeWord m (compose (i.toRaw m)) = .ok i := decodeWord_encode h i
    simp only [decodeRaw, hd]

/-- Settles O5: both sides say that the tuple is that of an instruction. -/
theorem roundTripHoldsExactlyForLegalOperands : Obligations.RoundTripHoldsExactlyForLegalOperands :=
  fun _ hdistinct q => (decodeRaw_compose_iff hdistinct q).trans legal_iff_exists_toRaw.symm

/-! ### The bits a format looks at -/

theorem layout_and (c c' : BitVec 3) (op op' : BitVec 6) (d d' : RegIdx) (low low' : BitVec 19) :
    layout c op d low &&& layout c' op' d' low' = layout (c &&& c') (op &&& op') (d &&& d') (low &&& low') := by
  apply BitVec.eq_of_getLsbD_eq
  intro j _
  simp only [BitVec.getLsbD_and, getLsbD_layout]
  split_ifs <;> rfl

/-- The low 19 bits that the operands a format reads from a word after slot 0 make. -/
def Format.low : Format → Word → BitVec 19
  | .r3, w => lowR3 (registerField w 1) (registerField w 2)
  | .r2, w => lowR2 (registerField w 1)
  | .r1, _ => 0#19
  | .ri, w => immediateValue w 1

/-- The used bits of a format among the low 19: what it reads from a word of ones. -/
def Format.lowBits (f : Format) : BitVec 19 := f.low (BitVec.allOnes 32)

/-- Inside its field a register is the bits of the word, each ANDed with the 1 read there from a word of ones. -/
theorem getLsbD_registerField (w : Word) (slot : Fin 3) {j : Nat} (hlo : 19 - 4 * slot.val ≤ j)
    (hhi : j < 23 - 4 * slot.val) :
    (registerField w slot).getLsbD (j - (19 - 4 * slot.val)) =
      (w.getLsbD j && (registerField (BitVec.allOnes 32) slot).getLsbD (j - (19 - 4 * slot.val))) := by
  have hj : j < 32 := by omega
  have hfield : j - (19 - 4 * slot.val) < 4 := by omega
  simp only [registerField, BitVec.getLsbD_extractLsb', BitVec.getLsbD_allOnes, Nat.add_sub_cancel' hlo, hj, hfield,
    decide_true, Bool.true_and, Bool.and_true]

theorem Format.low_eq_and (f : Format) (w : Word) : f.low w = w.extractLsb' 0 19 &&& f.lowBits := by
  apply BitVec.eq_of_getLsbD_eq
  intro j hj
  have hlow : (w.extractLsb' 0 19).getLsbD j = w.getLsbD j := by simp [hj]
  rw [BitVec.getLsbD_and, hlow]
  cases f with
  | r3 =>
    simp only [Format.low, Format.lowBits, getLsbD_lowR3]
    split_ifs with h11 h15
    · exact (Bool.and_false _).symm
    · exact getLsbD_registerField w 2 (Nat.le_of_not_lt h11) h15
    · exact getLsbD_registerField w 1 (Nat.le_of_not_lt h15) hj
  | r2 =>
    simp only [Format.low, Format.lowBits, getLsbD_lowR2]
    split_ifs with h15
    · exact (Bool.and_false _).symm
    · exact getLsbD_registerField w 1 (Nat.le_of_not_lt h15) hj
  | r1 => simp [Format.low, Format.lowBits]
  | ri =>
    have hone : (Format.lowBits .ri).getLsbD j = true := BitVec.getLsbD_allOnes.trans (decide_eq_true hj)
    rw [hone, Bool.and_true, ← hlow]
    rfl

theorem Format.usedBits_eq_layout (f : Format) :
    f.usedBits = layout (BitVec.allOnes 3) (BitVec.allOnes 6) (BitVec.allOnes 4) f.lowBits := by
  cases f <;> decide

theorem and_usedBits (w : Word) (f : Format) :
    w &&& f.usedBits =
      layout (conditionField w) (opcodeField w) (registerField w 0) (w.extractLsb' 0 19 &&& f.lowBits) := by
  calc w &&& f.usedBits
      = layout (conditionField w) (opcodeField w) (registerField w 0) (w.extractLsb' 0 19) &&&
          layout (BitVec.allOnes 3) (BitVec.allOnes 6) (BitVec.allOnes 4) f.lowBits := by
        rw [layout_fields, ← f.usedBits_eq_layout]
    _ = layout (conditionField w) (opcodeField w) (registerField w 0) (w.extractLsb' 0 19 &&& f.lowBits) := by
        simp only [layout_and, BitVec.and_allOnes]

theorem opcodeField_and_usedBits (w : Word) (f : Format) : opcodeField (w &&& f.usedBits) = opcodeField w := by
  rw [and_usedBits, opcodeField_layout]

theorem first_instrOf (k : Mnemonic) (w : Word) : (instrOf k w).first = registerField w 0 := by
  cases k <;> rfl

theorem low_instrOf (k : Mnemonic) (w : Word) : (instrOf k w).low = k.format.low w := by
  cases k <;> rfl

theorem cond_instrOf (k : Mnemonic) (w : Word) : (instrOf k w).cond = Cond.ofCode (conditionField w) := by
  cases k <;> rfl

theorem mnemonic_instrOf (k : Mnemonic) (w : Word) : (instrOf k w).mnemonic = k := by
  cases k <;> rfl

theorem encode_instrOf {m : OpMap} {w : Word} {k : Mnemonic} (h : m.lookup (opcodeField w) = some k) :
    encode m (instrOf k w) = w &&& k.format.usedBits := by
  rw [encode_eq_layout, and_usedBits, cond_instrOf, Cond.code_ofCode, mnemonic_instrOf, OpMap.number_of_lookup h,
    first_instrOf, low_instrOf, Format.low_eq_and]

/-- Settles O6: the fields of the word go back to where they were read. -/
theorem encodeOfDecodeClearsIgnoredBits : Obligations.EncodeOfDecodeClearsIgnoredBits := by
  intro m w i hd
  obtain ⟨k, hk, rfl⟩ := decodeWord_eq_ok_iff.mp hd
  rw [encode_instrOf hk, mnemonic_instrOf]

/-- Clearing the ignored bits changes no operand that is read: what is left is the word of the instruction. -/
theorem instrOf_and_usedBits {m : OpMap} {w : Word} {k : Mnemonic} (h : m.lookup (opcodeField w) = some k) :
    instrOf k (w &&& k.format.usedBits) = instrOf k w := by
  obtain ⟨_, _, hi⟩ := fieldsOfEncoding (instrOf k w) m
  rwa [mnemonic_instrOf, encode_instrOf h] at hi

/-- Settles O7: words that decode alike are encoded alike, so have the same used bits; words with the same used bits have the
same opcode, hence the same format, and the operands are read from used bits. -/
theorem onlyUsedBitsDecideDecoding : Obligations.OnlyUsedBitsDecideDecoding := by
  intro m w w' k hk
  rw [decodeWord_of_lookup hk]
  constructor
  · intro hd
    calc w' &&& k.format.usedBits = encode m (instrOf k w) := by
          rw [encodeOfDecodeClearsIgnoredBits m w' _ hd, mnemonic_instrOf]
      _ = w &&& k.format.usedBits := encode_instrOf hk
  · intro hused
    have hop : opcodeField w' = opcodeField w := by
      rw [← opcodeField_and_usedBits w' k.format, hused, opcodeField_and_usedBits]
    have hk' : m.lookup (opcodeField w') = some k := hop ▸ hk
    rw [decodeWord_of_lookup hk', ← instrOf_and_usedBits hk', hused, instrOf_and_usedBits hk]

/-! ### Refusals -/

theorem lookup_default_isSome_iff : ∀ op : BitVec 6, (OpMap.default.lookup op).isSome = true ↔ op.toNat ≤ 10 := by
  decide

/-- Settles O8: a refusal is a failed lookup; the default numbers are 0 to 10. -/
theorem onlyUnassignedOpcodesAreRefused : Obligations.OnlyUnassignedOpcodesAreRefused := by
  refine ⟨fun m w e => ?refusal, fun w => ?default⟩
  case refusal =>
    rw [← OpMap.lookup_eq_none_iff]
    rcases decodeWord_cases m w with ⟨k, hk, hd⟩ | ⟨hnone, hd⟩
    · simp [hk, hd]
    · simp [hnone, hd, eq_comm]
  case default =>
    rw [← lookup_default_isSome_iff, Option.isSome_iff_exists]
    exact ⟨fun ⟨_, hd⟩ => (decodeWord_eq_ok_iff.mp hd).imp fun _ h => h.1,
      fun ⟨k, hk⟩ => ⟨instrOf k w, decodeWord_of_lookup hk⟩⟩

/-! ### Operands that do not fit -/

theorem mul_two_pow_add_eq_xor {v k : Nat} (h : v < 2 ^ k) (t : Nat) : t * 2 ^ k + v = v ^^^ t * 2 ^ k := by
  apply Nat.eq_of_testBit_eq
  intro j
  rw [Nat.mul_comm, Nat.testBit_two_pow_mul_add t h, Nat.testBit_xor, Nat.testBit_two_pow_mul]
  by_cases hj : j < k
  · simp [hj, Nat.not_le_of_lt hj]
  · have hv : v.testBit j = false :=
      Nat.testBit_lt_two_pow (h.trans_le (Nat.pow_le_pow_right (by decide) (Nat.le_of_not_lt hj)))
    simp [hj, Nat.le_of_not_lt hj, hv]

theorem foldl_xor_bits (start t : Nat) (ops : List RawOperand) :
    ops.foldl (fun w o => w ^^^ o.bits) (start ^^^ t) = ops.foldl (fun w o => w ^^^ o.bits) start ^^^ t := by
  induction ops generalizing start with
  | nil => rfl
  | cons o ops ih => rw [List.foldl_cons, Nat.xor_right_comm, ih, List.foldl_cons]

/-- Numbers toggled into the bits of one operand are toggled into the word (30_encoding.md R85). -/
theorem compose_toggle (op c t : Nat) {o o' : RawOperand} (ho : o'.bits = o.bits ^^^ t) (first rest : List RawOperand) :
    compose { opcode := op, cond := c, operands := first ++ o' :: rest } =
      compose { opcode := op, cond := c, operands := first ++ o :: rest } ^^^ BitVec.ofNat 32 t := by
  simp only [compose, List.foldl_append, List.foldl_cons, ho, ← Nat.xor_assoc, foldl_xor_bits, BitVec.ofNat_xor]

/-- Settles O9: index 16 + i in slot 0 is the number 1 * 2^23 above the bits of index i, and the wide literal is
t * 2^k above the bits of v. -/
theorem overwideOperandsToggleTheirNeighbours : Obligations.OverwideOperandsToggleTheirNeighbours := by
  refine ⟨fun op c i rest hi => ?index, fun op c v t k first hv => ?literal⟩
  case index =>
    have hbits : (RawOperand.reg 0 (16 + i)).bits = (RawOperand.reg 0 i).bits ^^^ 1 * 2 ^ 23 := by
      simp only [RawOperand.bits_reg]
      rw [← mul_two_pow_add_eq_xor (by simp only [Fin.val_zero]; omega)]
      simp only [Fin.val_zero]
      omega
    exact compose_toggle op c _ hbits [] rest
  case literal =>
    have hbits : (RawOperand.lit (t * 2 ^ k + v)).bits = (RawOperand.lit v).bits ^^^ t * 2 ^ k :=
      mul_two_pow_add_eq_xor hv t
    exact compose_toggle op c _ hbits first []

end Sys2Proof
end

section
/-! PROOFS. The condition codes (30_encoding.md R77): the flags each of the eight codes asks for. -/

namespace Sys2Proof.Machine

/-- Each bit of a nonzero code stands for one flag: bit 2 for E, bit 1 for G, bit 0 for L. -/
theorem conditionSet_ofCode_iff (n : BitVec 3) (f : Flags) :
    conditionSet (Cond.ofCode n) f = true ↔ n = 0 ∨ (n.getLsbD 2 = true ∧ f.equal = true) ∨
      (n.getLsbD 1 = true ∧ f.greater = true) ∨ (n.getLsbD 0 = true ∧ f.less = true) := by
  obtain ⟨e, g, l⟩ := f
  revert n e g l
  decide

/-- Settles O12: the flags of a code are those of its bits. -/
theorem conditionCodesGateAsTabled : Obligations.ConditionCodesGateAsTabled := by
  intro f
  simp [conditionSet_ofCode_iff]

end Sys2Proof.Machine
end

section
/-! PROOFS. A loaded program (30_encoding.md R70; 70_reset_and_hazards.md R271, R272): where LOAD puts its words, and that the
fetch gives them back. -/

namespace Sys2Proof

/-- A word below the place where words are written stays. -/
theorem Memory.readWord_writeWords_of_below {m : Memory} (h : m.wf = true) {a b : Nat} (hb : b + 4 ≤ a) (vs : List Word) :
    (m.writeWords a vs).readWord b = m.readWord b := by
  induction vs generalizing m a with
  | nil => rfl
  | cons v vs ih =>
    calc ((m.writeWord a v).writeWords (a + 4) vs).readWord b
        = (m.writeWord a v).readWord b := ih (Memory.writeWord_wf h a v) (by omega)
      _ = m.readWord b := Memory.readWord_writeWord_of_apart h v (.inr hb)

/-- Word `i` of the words written from `a` on stands at `a + 4*i` (70_reset_and_hazards.md R271). -/
theorem Memory.readWord_writeWords {m : Memory} (h : m.wf = true) (a : Nat) (vs : List Word) {i : Nat}
    (hi : i < vs.length) : (m.writeWords a vs).readWord (a + 4 * i) = vs[i] := by
  induction vs generalizing m a i with
  | nil => cases hi
  | cons v vs ih =>
    have hwf := Memory.writeWord_wf h a v
    cases i with
    | zero =>
      calc ((m.writeWord a v).writeWords (a + 4) vs).readWord a
          = (m.writeWord a v).readWord a := Memory.readWord_writeWords_of_below hwf (Nat.le_refl _) vs
        _ = v := Memory.readWord_writeWord h a v
    | succ i =>
      have haddr : a + 4 * (i + 1) = a + 4 + 4 * i := by omega
      rw [haddr]
      exact ih hwf (a + 4) (Nat.lt_of_succ_lt_succ hi)

end Sys2Proof

namespace Sys2Proof.Machine

theorem pc_setPc (s : State) (v : Word) : (s.setPc v).pc = v :=
  reg_setReg_self s RegIdx.pc v

/-- A running CORE whose program counter is put at a multiple of 4 inside code and memory fetches the word there. -/
theorem fetches_setPc {s : State} {p : Word} (hrun : s.run = .running) (hcode : p.toNat < s.codeLen.toNat)
    (halign : p.toNat % 4 = 0) (hin : p.toNat + 4 ≤ s.cfg.memSize) :
    Fetches (s.setPc p) (s.mem.readWord p.toNat) := by
  have hfetch := fetch_of_inBounds (s := s.setPc p)
  rw [pc_setPc] at hfetch
  exact ⟨hrun, (pc_setPc s p).symm ▸ hcode, hfetch (.inl halign) hin⟩

/-- What is in place after LOAD and RUN (70_reset_and_hazards.md R271, R272). -/
theorem hostRun_after_hostLoad {s t u : State} {words : List Word} (hload : hostLoad words s = .next t)
    (hrun : hostRun t = .next u) :
    u.run = .running ∧ u.mem = s.mem.writeWords 0 words ∧ u.codeLen = t.codeLen ∧ u.cfg = s.cfg := by
  obtain ⟨_, rfl⟩ := hostLoad_next hload
  obtain rfl := hostRun_next hrun
  exact ⟨rfl, rfl, rfl, rfl⟩

/-- Settles O53: 4*i is a multiple of 4 inside code and memory, and the copy put word i there. -/
theorem loadedWordsAreFetched : Obligations.LoadedWordsAreFetched := by
  intro s t u words i hvalid hwf hload hrun hi
  have hlen := codeLen_of_hostLoad hvalid hload
  obtain ⟨hfits, _⟩ := hostLoad_next hload
  obtain ⟨hrunning, hmem, hcode, hcfg⟩ := hostRun_after_hostLoad hload hrun
  obtain ⟨_, hsize, _⟩ := hvalid
  have haddr : (BitVec.ofNat 32 (4 * i)).toNat = 4 * i := (BitVec.toNat_ofNat _ _).trans (Nat.mod_eq_of_lt (by omega))
  have hword : u.mem.readWord (4 * i) = words[i] := by
    rw [hmem, ← Nat.zero_add (4 * i)]
    exact Memory.readWord_writeWords hwf 0 words hi
  rw [← hword, ← haddr, BitVec.ofNat_toNat, BitVec.setWidth_eq]
  exact fetches_setPc hrunning (by rw [haddr, hcode, hlen]; omega) (by rw [haddr]; omega) (by rw [haddr, hcfg]; omega)

end Sys2Proof.Machine
end

section
/-! PROOFS. The text format (30_encoding.md R91 to R98, R101): a number is read back from its decimal text, an operand from its
token, and an instruction's word from its well-formed line. -/

namespace Sys2Proof.Assembler

/-! ### Decimal numbers -/

/-- The character of a decimal digit. -/
def digitChar (d : Nat) : Char := Char.ofNat ('0'.toNat + d)

theorem digitValue_digitChar : ∀ {d : Nat}, d < 10 → digitValue (digitChar d) = some d := by
  decide

/-- A digit is neither of the two characters that mark a token (30_encoding.md R94, R95). -/
theorem digitChar_ne_mark : ∀ {d : Nat}, d < 10 → digitChar d ≠ 'r' ∧ digitChar d ≠ '%' := by
  decide

theorem readDigits_digitChar_cons (v : Nat) {d : Nat} (hd : d < 10) (rest : List Char) :
    readDigits v (digitChar d :: rest) = readDigits (10 * v + d) rest := by
  rw [readDigits, digitValue_digitChar hd]

/-- The digits of a number read as that number, from which the reading goes on. -/
theorem readDigits_decimalDigits {fuel n : Nat} (h : n < 10 ^ fuel) (acc : List Char) :
    readDigits 0 (decimalDigits fuel n acc) = readDigits n acc := by
  induction fuel generalizing n acc with
  | zero =>
    obtain rfl : n = 0 := by omega
    rfl
  | succ fuel ih =>
    unfold decimalDigits
    split_ifs with hn
    · exact (readDigits_digitChar_cons 0 hn acc).trans (by rw [Nat.mul_zero, Nat.zero_add])
    · have hdigit : n % 10 < 10 := Nat.mod_lt _ (by decide)
      have hquot : n / 10 < 10 ^ fuel := Nat.div_lt_of_lt_mul (by rwa [Nat.pow_succ'] at h)
      calc readDigits 0 (decimalDigits fuel (n / 10) (digitChar (n % 10) :: acc))
          = readDigits (n / 10) (digitChar (n % 10) :: acc) := ih hquot _
        _ = readDigits n acc := by rw [readDigits_digitChar_cons _ hdigit, Nat.div_add_mod]

theorem mem_decimalDigits {fuel n : Nat} {acc : List Char} {ch : Char} (h : ch ∈ decimalDigits fuel n acc) :
    ch ∈ acc ∨ ∃ d < 10, ch = digitChar d := by
  induction fuel generalizing n acc with
  | zero => exact .inl h
  | succ fuel ih =>
    have hcons {d : Nat} (hd : d < 10) (hch : ch ∈ digitChar d :: acc) : ch ∈ acc ∨ ∃ d < 10, ch = digitChar d :=
      (List.mem_cons.mp hch).elim (fun e => .inr ⟨d, hd, e⟩) .inl
    unfold decimalDigits at h
    split_ifs at h with hn
    · exact hcons hn h
    · exact (ih h).elim (hcons (Nat.mod_lt _ (by decide))) .inr

theorem decimalDigits_ne_nil (fuel n : Nat) {acc : List Char} (h : acc ≠ []) : decimalDigits fuel n acc ≠ [] := by
  induction fuel generalizing n acc with
  | zero => exact h
  | succ fuel ih =>
    unfold decimalDigits
    split_ifs
    · exact List.cons_ne_nil _ _
    · exact ih _ (List.cons_ne_nil _ _)

theorem decimal_ne_nil (n : Nat) : decimal n ≠ [] := by
  unfold decimal decimalDigits
  split_ifs
  · exact List.cons_ne_nil _ _
  · exact decimalDigits_ne_nil _ _ (List.cons_ne_nil _ _)

theorem exists_digit_of_mem_decimal {n : Nat} {ch : Char} (h : ch ∈ decimal n) : ∃ d < 10, ch = digitChar d :=
  (mem_decimalDigits h).resolve_left List.not_mem_nil

/-- Decimal text marks no token as a register or as a data address. -/
theorem mark_notMem_decimal (n : Nat) : 'r' ∉ decimal n ∧ '%' ∉ decimal n := by
  refine ⟨fun h => ?_, fun h => ?_⟩ <;> obtain ⟨d, hd, e⟩ := exists_digit_of_mem_decimal h
  · exact (digitChar_ne_mark hd).1 e.symm
  · exact (digitChar_ne_mark hd).2 e.symm

/-- A number is read back from its decimal text (30_encoding.md R96). -/
theorem parseNumber_decimal {n : Nat} (h : n < 10 ^ 10) : parseNumber (decimal n) = .ok n := by
  have hread : readDigits 0 (decimal n) = some n := readDigits_decimalDigits h []
  unfold parseNumber
  split
  next hnil => exact absurd hnil (decimal_ne_nil n)
  next => rw [hread]

/-! ### Operands -/

section
variable {lines used : Nat} {rest : List Token} {ops : List RawOperand}

theorem parseOperands_register_cons {i : Nat} (hi : i < 10 ^ 10) (hused : used < 3)
    (hrest : parseOperands lines (used + 1) rest = .ok ops) :
    parseOperands lines used (operandText (.reg ⟨used, hused⟩ i) :: rest) = .ok (.reg ⟨used, hused⟩ i :: ops) := by
  have hmark : ('r' :: decimal i).contains 'r' = true := by simp
  have hstrip : ('r' :: decimal i).filter (fun ch => ch != 'r') = decimal i := by
    rw [List.filter_cons_of_neg (by decide), List.filter_eq_self]
    intro ch hch
    exact bne_iff_ne.mpr fun e => (mark_notMem_decimal i).1 (e ▸ hch)
  simp only [operandText, parseOperands, hmark, hstrip, parseNumber_decimal hi, hused, hrest, if_true, dif_pos]

theorem parseOperands_literal_cons {v : Nat} (hv : v < 10 ^ 10) (hrest : parseOperands lines used rest = .ok ops) :
    parseOperands lines used (operandText (.lit v) :: rest) = .ok (.lit v :: ops) := by
  obtain ⟨hr, hpercent⟩ := mark_notMem_decimal v
  have hnotRegister : (decimal v).contains 'r' = false := Bool.eq_false_iff.mpr (mt List.contains_iff_mem.mp hr)
  have hnotData : (decimal v).contains '%' = false := Bool.eq_false_iff.mpr (mt List.contains_iff_mem.mp hpercent)
  simp only [operandText, parseOperands, hnotRegister, hnotData, parseNumber_decimal hv, hrest, Bool.false_eq_true,
    if_false]

end

/-- The operands of a format are read back from their text: registers take the slots in order, and a literal none. -/
theorem parseOperands_operandText {f : Format} {ops : List RawOperand} (h : OperandsOf f ops) (lines : Nat) :
    parseOperands lines 0 (ops.map operandText) = .ok ops := by
  have hreg (r : RegIdx) : r.toNat < 10 ^ 10 := r.isLt.trans (by decide)
  have hlit (v : BitVec 19) : v.toNat < 10 ^ 10 := v.isLt.trans (by decide)
  have hnil (used : Nat) : parseOperands lines used [] = .ok [] := rfl
  cases h with
  | r3 d a b =>
    exact parseOperands_register_cons (hreg d) _ <| parseOperands_register_cons (hreg a) _ <|
      parseOperands_register_cons (hreg b) _ (hnil 3)
  | r2 a b => exact parseOperands_register_cons (hreg a) _ <| parseOperands_register_cons (hreg b) _ (hnil 2)
  | r1 a => exact parseOperands_register_cons (hreg a) _ (hnil 1)
  | ri d v => exact parseOperands_register_cons (hreg d) _ <| parseOperands_literal_cons (hlit v) (hnil 1)

/-! ### The first token -/

theorem length_spelling (k : Mnemonic) : (spelling k).length = 3 := by
  cases k <;> rfl

theorem find?_spelling (k : Mnemonic) : (Mnemonic.all.find? fun j => spelling j == spelling k) = some k := by
  cases k <;> rfl

theorem suffixCode_of_suffix {c : Cond} {letters : Token} (h : suffix c = some letters) :
    suffixCode letters = .ok c.code.toNat := by
  cases c <;> cases h <;> rfl

theorem parseMnemonic_spelling {c : Cond} {letters : Token} (h : suffix c = some letters) (k : Mnemonic) :
    parseMnemonic (spelling k ++ letters) = .ok (k, c.code.toNat) := by
  have htake : (spelling k ++ letters).take 3 = spelling k := List.take_left' (length_spelling k)
  have hdrop : (spelling k ++ letters).drop 3 = letters := List.drop_left' (length_spelling k)
  simp only [parseMnemonic, htake, hdrop, find?_spelling, suffixCode_of_suffix h]

/-! ### The line of an instruction -/

theorem suffix_isSome_iff (c : Cond) : (suffix c).isSome = true ↔ c ≠ .anyFlag := by
  cases c <;> decide

theorem disassemble_eq_some_iff {i : Instr} {tokens : List Token} :
    disassemble i = some tokens ↔ ∃ letters, suffix i.cond = some letters ∧
      tokens = (spelling i.mnemonic ++ letters) :: i.rawOperands.map operandText := by
  unfold disassemble
  cases suffix i.cond <;> simp [eq_comm]

theorem assembleLine_disassemble {i : Instr} {tokens : List Token} (h : disassemble i = some tokens) (m : OpMap)
    (lines : Nat) : assembleLine m lines tokens = .ok (encode m i) := by
  obtain ⟨letters, hsuffix, rfl⟩ := disassemble_eq_some_iff.mp h
  simp only [assembleLine, parseMnemonic_spelling hsuffix, parseOperands_operandText (operandsOf_rawOperands i)]
  rfl

/-- Settles O56: the line exists exactly when the condition has a suffix, and each of its tokens is read back. -/
theorem disassemblyAssemblesBack : Obligations.DisassemblyAssemblesBack := by
  refine fun m lines i => ⟨?_, fun tokens h => assembleLine_disassemble h m lines⟩
  rw [← suffix_isSome_iff, Option.isSome_iff_exists]
  exact ⟨fun ⟨_, h⟩ => ⟨_, disassemble_eq_some_iff.mpr ⟨_, h, rfl⟩⟩,
    fun ⟨_, h⟩ => (disassemble_eq_some_iff.mp h).imp fun _ h => h.1⟩

end Sys2Proof.Assembler
end

section
/-! PROOFS. The execution cycle (40_execution_cycle.md): the halting test, an aligned fetch inside the code, the condition gate
on numbers, and a step that runs or skips what it fetches. -/

namespace Sys2Proof.Machine

/-! ### The gate on numbers -/

theorem toNat_flagVector (f : Flags) : (flagVector f).toNat = 4 * f.equal.toNat + 2 * f.greater.toNat + f.less.toNat := by
  simp only [flagVector, toNat_append_eq_add, BitVec.toNat_ofBool]
  omega

/-- R125 on numbers: the AND of two bit vectors is zero exactly when the AND of their numbers is. -/
theorem conditionSet_iff (c : Cond) (f : Flags) :
    conditionSet c f = true ↔
      (c.code.toNat = 0 ∨ (4 * f.equal.toNat + 2 * f.greater.toNat + f.less.toNat) &&& c.code.toNat ≠ 0) := by
  have hzero (v : BitVec 3) : v = 0 ↔ v.toNat = 0 := BitVec.toNat_eq
  have hand : flagVector f &&& c.code ≠ 0 ↔
      (4 * f.equal.toNat + 2 * f.greater.toNat + f.less.toNat) &&& c.code.toNat ≠ 0 := by
    rw [Ne, hzero, BitVec.toNat_and, toNat_flagVector]
  rw [← hand, ← hzero]
  by_cases hcode : c.code = 0 <;> simp [conditionSet, hcode]

/-- Settles O11: the gate's formula, and what it says for `ne` and for flags that are all 0. -/
theorem gateIsTheAndWithTheFlagVector : Obligations.GateIsTheAndWithTheFlagVector := by
  refine ⟨conditionSet_iff, fun f => ?notEqual, fun c => ?noFlag, fun i s hskip => exec_of_not_set hskip⟩
  case notEqual =>
    have ⟨_, _, _, hne, _⟩ := conditionCodesGateAsTabled f
    exact hne
  case noFlag => simp [conditionSet_iff]

/-! ### The halting test -/

/-- Nothing but the halting test makes RUN = HALTED: a body keeps RUN or stops. -/
theorem BodyEffect.run_ne_halted {i : Instr} {s t : State} (h : BodyEffect i s t) (hs : s.run ≠ .halted) :
    t.run ≠ .halted := by
  cases h with
  | divideByZero | loadStop | storeStop => exact nofun
  | register | compare | store | output => exact hs

theorem run_ne_halted_of_exec {i : Instr} {s t : State} (h : exec i s = .next t) (hs : s.run ≠ .halted) :
    t.run ≠ .halted := by
  rcases exec_cases i s with ⟨_, hskip⟩ | ⟨_, t', hbody, heffect⟩
  · cases h.symm.trans hskip
    exact hs
  · cases h.symm.trans hbody
    exact heffect.run_ne_halted hs

/-- What a word with an unassigned opcode can do: stop before the advance, stop after it, or only advance. -/
theorem undefinedOpcode_cases (w : Word) (s : State) :
    undefinedOpcode w s = .next (raise (illegalOpcode w) s) ∨
      undefinedOpcode w s = .next (raise (illegalOpcode w) (advance s)) ∨ undefinedOpcode w s = .next (advance s) := by
  cases hp : s.cfg.illegalOpcode with
  | faultAlways => exact .inl (undefinedOpcode_of_faultAlways hp)
  | nop => exact .inr (.inr (undefinedOpcode_of_nop hp))
  | faultIfExecuted =>
    cases hc : conditionSet (Cond.ofCode (conditionField w)) s.flags with
    | true => exact .inr (.inl (undefinedOpcode_of_executed hp hc))
    | false => exact .inr (.inr (undefinedOpcode_of_skipped hp hc))

theorem run_ne_halted_of_undefinedOpcode {w : Word} {s t : State} (h : undefinedOpcode w s = .next t)
    (hs : s.run ≠ .halted) : t.run ≠ .halted := by
  rcases undefinedOpcode_cases w s with hu | hu | hu <;> cases h.symm.trans hu
  · exact nofun
  · exact nofun
  · exact hs

/-- R121: below the end of the code no step halts. -/
theorem run_ne_halted_of_step {s t : State} (hpc : s.pc < s.codeLen) (hstep : step s = .next t) : t.run ≠ .halted := by
  have hrun := running_of_step hstep
  have hs : s.run ≠ .halted := hrun ▸ nofun
  rcases step_running_cases hrun with
    ⟨hend, _⟩ | ⟨_, e, _, hstop⟩ | ⟨_, w, _, _, hundef⟩ | ⟨_, w, i, _, _, hexec⟩
  · exact absurd hpc hend
  · cases hstep.symm.trans hstop
    exact nofun
  · exact run_ne_halted_of_undefinedOpcode (hundef.symm.trans hstep) hs
  · exact run_ne_halted_of_exec (s := advance s) (hexec.symm.trans hstep) hs

/-- Settles O31: at the end of the code the step is `halt`, no step follows a state that is not running, and the other ways a
step can go do not halt. -/
theorem stepHaltsAtTheEndOfTheCode : Obligations.StepHaltsAtTheEndOfTheCode := by
  refine fun s hrun => ⟨fun hend => ?atEnd, fun hempty => ?noCode, fun hpc t hstep => run_ne_halted_of_step hpc hstep⟩
  case atEnd =>
    exact ⟨halt s, step_of_atEnd hrun (BitVec.not_lt.mpr hend), rfl, fun u => step_of_not_running nofun⟩
  case noCode =>
    have hend : ¬ s.pc < s.codeLen := hempty ▸ BitVec.not_lt_zero
    exact step_of_atEnd hrun hend

/-! ### The fetch -/

/-- Settles O45: two multiples of 4, one below the other, are at least 4 apart, and the code lies inside memory. -/
theorem alignedFetchNeverLeavesTheCode : Obligations.AlignedFetchNeverLeavesTheCode := by
  intro s hinv hrun hpc halign
  obtain ⟨_, _, _, hmod, hsize, _⟩ := hinv
  have hlt : s.pc.toNat < s.codeLen.toNat := hpc
  have hcode : s.pc.toNat + 4 ≤ s.codeLen.toNat := by omega
  exact ⟨hcode, hsize, hrun, hpc, fetch_of_inBounds (.inl halign) (hcode.trans hsize)⟩

/-! ### What is run and what is skipped -/

/-- Settles O30: the fetched word decodes, so the step is the body, run on the state after the advance. -/
theorem stepRunsTheDecodedInstruction : Obligations.StepRunsTheDecodedInstruction := fun s _ hi =>
  ⟨step_of_fetchesInstr hi, advance_onlyRegister s⟩

/-- R127: the gate reads the flags of the advanced state, which are those of `s`, and skips the body. -/
theorem step_of_skipped {s : State} {i : Instr} (hi : FetchesInstr s i) (hc : conditionSet i.cond s.flags = false) :
    step s = .next (advance s) :=
  (step_of_fetchesInstr hi).trans (exec_of_not_set (s := advance s) hc)

/-- Settles O32: the step ends in the advanced state, whether the word decodes to an instruction or its opcode is unassigned. -/
theorem skippedWordOnlyAdvancesThePc : Obligations.SkippedWordOnlyAdvancesThePc := by
  intro s w hf hc hskippable
  refine ⟨advance s, ?_, advance_onlyRegister s⟩
  rcases decodeWord_cases s.cfg.opmap w with ⟨k, _, hd⟩ | ⟨hnone, _⟩
  · exact step_of_skipped ⟨w, hf, hd⟩ (cond_of_decodeWord hd ▸ hc)
  · have hunassigned := OpMap.lookup_eq_none_iff.mp hnone
    have hp : s.cfg.illegalOpcode = .faultIfExecuted :=
      hskippable.resolve_left fun ⟨k, hk⟩ => hunassigned k hk
    rw [step_of_unassigned hf hunassigned]
    exact undefinedOpcode_of_skipped hp hc

end Sys2Proof.Machine
end

section
/-! PROOFS. Load and store (41_load_store.md): what an executed `ldr` and `str` do inside memory and outside it, that a load gives
back the word stored, and the words the spec prints for these and other instructions (95_test_vectors.md). -/

namespace Sys2Proof

/-! ### Printed words -/

/-- A word is an instruction's exactly when it is the encoding of it, up to the bits its format ignores (30_encoding.md R79). -/
theorem decodeWord_eq_ok_iff_encode {m : OpMap} (h : m.Distinct) {w : Word} {i : Instr} :
    decodeWord m w = .ok i ↔ w &&& i.mnemonic.format.usedBits = encode m i := by
  have hdecode : decodeWord m (encode m i) = .ok i := decodeWord_encode h i
  obtain ⟨hop, _⟩ := fieldsOfEncoding i m
  have hlookup : m.lookup (opcodeField (encode m i)) = some i.mnemonic := hop ▸ OpMap.lookup_number h i.mnemonic
  have hclear : encode m i &&& i.mnemonic.format.usedBits = encode m i :=
    (encodeOfDecodeClearsIgnoredBits m _ i hdecode).symm
  rw [← hdecode, onlyUsedBitsDecideDecoding m _ w _ hlookup, hclear]

/-- Settles O2: eight words are the encodings of their instructions, the second `add` with ignored bits set; 63 is no number of
the default OPMAP. -/
theorem vectorWordsDecodeAsTabled : Obligations.VectorWordsDecodeAsTabled := by
  have hdistinct : OpMap.default.Distinct := by decide
  have hword {w : Word} {i : Instr} (h : w &&& i.mnemonic.format.usedBits = encode OpMap.default i) :
      decodeWord OpMap.default w = .ok i := (decodeWord_eq_ok_iff_encode hdistinct).mpr h
  have hunassigned : ∀ k, OpMap.default.number k ≠ opcodeField 0x1F800000#32 :=
    OpMap.lookup_eq_none_iff.mp (by decide)
  exact ⟨hword (by decide), hword (by decide), hword (by decide), hword (by decide), hword (by decide), hword (by decide),
    hword (by decide), hword (by decide), Machine.decodeWord_of_unassigned hunassigned⟩

/-! ### A word of unchanged bytes -/

theorem Memory.readWord_congr {m n : Memory} {a : Nat} (h : ∀ x, a ≤ x → x < a + 4 → m.read x = n.read x) :
    m.readWord a = n.readWord a := by
  have hbyte {k : Nat} (hk : k < 4) : m.read (a + k) = n.read (a + k) := h (a + k) (by omega) (by omega)
  simp only [Memory.readWord, h a (by omega) (by omega), hbyte, Nat.reduceLT]

end Sys2Proof

namespace Sys2Proof.Machine

/-! ### Inside memory -/

/-- Settles O17: the body writes the word read into `dst`, and that word is the number made of its four bytes. -/
theorem ldrLoadsTheWordAndNothingElse : Obligations.LdrLoadsTheWordAndNothingElse := fun _ dst _ s hset hin =>
  ⟨_, _, exec_ldr_inBounds hset hin dst, setReg_onlyRegister s dst _, Word.toNat_ofBytes ..⟩

/-- Settles O18: the body is one word written at the address, whose reads the laws of memory give. -/
theorem strStoresTheWordAndNothingElse : Obligations.StrStoresTheWordAndNothingElse := by
  intro c valReg addrReg s hwf hset hin
  refine ⟨_, exec_str_inBounds hset hin valReg, withMem_sameButMemory s _, fun k hk => ?bytes, fun x hx => ?others⟩
  case bytes => exact Memory.toNat_read_writeWord hwf (s.reg addrReg).toNat (s.reg valReg) hk
  case others => exact Memory.read_writeWord_of_outside hwf (s.reg valReg) hx

/-- Settles O15: the four bytes `u` holds at the address are those the store left there, so the load reads the word stored. -/
theorem loadReturnsTheStoredWord : Obligations.LoadReturnsTheStoredWord := by
  intro s t u c c' valReg addrReg dst addrReg' hwf hset hin hstore hsize haddr hbytes hset'
  cases hstore.symm.trans (exec_str_inBounds hset hin valReg)
  have hin' : (u.reg addrReg').toNat + 4 ≤ u.cfg.memSize := by rwa [haddr, hsize]
  have hword : u.mem.readWord (u.reg addrReg').toNat = s.reg valReg :=
    calc u.mem.readWord (u.reg addrReg').toNat
        = u.mem.readWord (s.reg addrReg).toNat := by rw [haddr]
      _ = (s.mem.writeWord (s.reg addrReg).toNat (s.reg valReg)).readWord (s.reg addrReg).toNat :=
        Memory.readWord_congr hbytes
      _ = s.reg valReg := Memory.readWord_writeWord hwf (s.reg addrReg).toNat (s.reg valReg)
  exact ⟨_, exec_ldr_inBounds hset' hin' dst, hword ▸ setReg_onlyRegister u dst _⟩

/-! ### Outside memory -/

/-- Settles O19: either body is the fatal stop of its access, which keeps all but RUN, CAUSE and INFO. -/
theorem dataAccessOutOfBoundsStops : Obligations.DataAccessOutOfBoundsStops := fun _ r _ s hset hout =>
  ⟨⟨_, exec_ldr_outOfBounds hset hout r, raise_stoppedWith _ s⟩,
    ⟨_, exec_str_outOfBounds hset hout r, raise_stoppedWith _ s⟩⟩

end Sys2Proof.Machine
end

section
/-! PROOFS. Arithmetic (42_arithmetic.md): what an executed `add`, `sub`, `mul` and `div` write, as numbers, and the stop
of a `div` by zero. -/

namespace Sys2Proof.Machine

/-- The difference of two words is that of their numbers, wrapped: the 2^w that keeps the natural-number form from going below
0 vanishes modulo 2^w. -/
theorem toNat_sub_eq_emod {w : Nat} (x y : BitVec w) : ((x - y).toNat : Int) = (x.toNat - y.toNat : Int) % 2 ^ w := by
  have hy : y.toNat ≤ 2 ^ w := y.isLt.le
  calc ((x - y).toNat : Int)
      = (((2 ^ w - y.toNat + x.toNat) % 2 ^ w : Nat) : Int) := by rw [BitVec.toNat_sub]
    _ = (x.toNat - y.toNat + 2 ^ w : Int) % 2 ^ w := by
      push_cast [hy]
      congr 1
      omega
    _ = (x.toNat - y.toNat : Int) % 2 ^ w := Int.add_emod_right ..

/-- Settles O20: each body writes the word operation on its sources into `dst`, and that operation is the wrapped one on
numbers. -/
theorem addSubMulWriteTheWrappedResult : Obligations.AddSubMulWriteTheWrappedResult := by
  refine fun c dst a b s hset => ⟨?add, ?sub, ?mul⟩
  case add => exact ⟨_, _, exec_add_of_set hset dst a b, setReg_onlyRegister s dst _, BitVec.toNat_add ..⟩
  case sub => exact ⟨_, _, exec_sub_of_set hset dst a b, setReg_onlyRegister s dst _, toNat_sub_eq_emod ..⟩
  case mul => exact ⟨_, _, exec_mul_of_set hset dst a b, setReg_onlyRegister s dst _, BitVec.toNat_mul ..⟩

/-- Settles O21: division of words is division of their numbers, and a nonzero divisor does not stop the body. -/
theorem divWritesTheUnsignedQuotient : Obligations.DivWritesTheUnsignedQuotient := fun _ dst a _ s hset hdivisor =>
  ⟨_, _, exec_div_of_ne_zero hset hdivisor dst a, setReg_onlyRegister s dst _, BitVec.toNat_udiv⟩

/-- Settles O22: the body is the fatal stop with the address of the `div`, which keeps all but RUN, CAUSE and INFO. -/
theorem divByZeroStops : Obligations.DivByZeroStops := fun _ dst a _ s hset hzero =>
  ⟨_, exec_div_of_zero hset hzero dst a, raise_stoppedWith _ s⟩

end Sys2Proof.Machine
end

section
/-! PROOFS. Move (43_move.md): what an executed `mov` writes, and that a register token as its source is a literal. -/

namespace Sys2Proof

/-- The hardware cannot tell the two spellings apart: with the token `rK` as its source a `mov` composes to the word that it
has with the literal K * 2^15 (43_move.md R181). -/
theorem compose_mov_registerToken (m : OpMap) (c : Cond) (d k : RegIdx) :
    compose { opcode := m.mov.toNat, cond := c.code.toNat, operands := [.reg 0 d.toNat, .reg 1 k.toNat] } =
      encode m (.mov c d (lowR2 k)) :=
  calc compose { opcode := m.mov.toNat, cond := c.code.toNat, operands := [.reg 0 d.toNat, .reg 1 k.toNat] }
      = layout c.code m.mov d (lowR2 k) := compose_r2 ..
    _ = encode m (.mov c d (lowR2 k)) := (encode_eq_layout m (.mov c d (lowR2 k))).symm

end Sys2Proof

namespace Sys2Proof.Machine

/-- Settles O23: the body writes the literal widened to a word, and that word is the literal's number. -/
theorem movWritesTheLiteral : Obligations.MovWritesTheLiteral := by
  intro c dst imm19 s hset
  refine ⟨s.setReg dst (imm19.setWidth 32), exec_mov_of_set hset dst imm19, ?_⟩
  rw [BitVec.ofNat_toNat]
  exact setReg_onlyRegister s dst _

/-- Settles O10: the word is that of the `mov` with the literal `lowR2 k`, which decodes to that `mov` and moves K * 2^15. -/
theorem movOfARegisterTokenMovesALiteral : Obligations.MovOfARegisterTokenMovesALiteral := by
  intro m hdistinct c d k s hset
  obtain ⟨t, hexec, honly⟩ := movWritesTheLiteral c d (lowR2 k) s hset
  refine ⟨.mov c d (lowR2 k), t, ?decodes, hexec, ?moves⟩
  case decodes =>
    rw [compose_mov_registerToken]
    exact decodeWord_encode hdistinct _
  case moves => rwa [toNat_lowR2] at honly

end Sys2Proof.Machine
end

section
/-! PROOFS. Compare (44_compare.md): the flags of a comparison on numbers, what an executed `cmp` writes, and the relation
each condition then stands for. -/

namespace Sys2Proof.Machine

/-! ### The flags of a comparison on numbers -/

theorem compareFlags_equal_iff (p q : Word) : (compareFlags p q).equal = true ↔ p.toNat = q.toNat :=
  decide_eq_true_iff.trans BitVec.toNat_eq

theorem compareFlags_greater_iff (p q : Word) : (compareFlags p q).greater = true ↔ p.toNat > q.toNat :=
  decide_eq_true_iff.trans BitVec.lt_def

theorem compareFlags_less_iff (p q : Word) : (compareFlags p q).less = true ↔ p.toNat < q.toNat :=
  decide_eq_true_iff.trans BitVec.lt_def

/-- R191: no two flags are 1, and by trichotomy one is. -/
theorem compareFlags_sum (p q : Word) :
    (compareFlags p q).equal.toNat + (compareFlags p q).greater.toNat + (compareFlags p q).less.toNat = 1 := by
  have hatMostOne := of_decide_eq_true (compareFlags_reachable p q)
  have hone {flag : Bool} (h : flag = true) : flag.toNat = 1 := congrArg Bool.toNat h
  rcases Nat.lt_trichotomy p.toNat q.toNat with hlt | heq | hgt
  · have hL := hone ((compareFlags_less_iff p q).mpr hlt)
    omega
  · have hE := hone ((compareFlags_equal_iff p q).mpr heq)
    omega
  · have hG := hone ((compareFlags_greater_iff p q).mpr hgt)
    omega

/-! ### An executed `cmp` -/

theorem withFlags_sameButFlags (s : State) (f : Flags) : SameButFlags s { s with flags := f } :=
  ⟨fun _ => rfl, fun _ => rfl, rfl, rfl, rfl, rfl, rfl, rfl⟩

/-- Settles O24: the body writes the flags of the comparison and no other field. -/
theorem cmpSetsExactlyOneFlag : Obligations.CmpSetsExactlyOneFlag := fun _ a b s hset =>
  ⟨_, exec_cmp_of_set hset a b, withFlags_sameButFlags s _, compareFlags_equal_iff .., compareFlags_greater_iff ..,
    compareFlags_less_iff .., compareFlags_sum ..⟩

/-- Settles O25: the gate's table says which flags a condition tests, and O24 says which relation each flag is; `ne`, `le`, `ge`
and condition 7 then hold by trichotomy. -/
theorem conditionsAfterCompareAreTheRelations : Obligations.ConditionsAfterCompareAreTheRelations := by
  intro c a b s hset
  obtain ⟨t, hexec, -, hE, hG, hL, -⟩ := cmpSetsExactlyOneFlag c a b s hset
  have ⟨_, hless, hgreater, hne, hequal, hle, hge, hany⟩ := conditionCodesGateAsTabled t.flags
  rw [hG, hL] at hne
  rw [hE, hL] at hle
  rw [hE, hG] at hge
  rw [hE, hG, hL] at hany
  refine ⟨t, hexec, hequal.trans hE, hgreater.trans hG, hless.trans hL, hne.trans ?ne, hle.trans ?le, hge.trans ?ge,
    hany.mpr ?any⟩
  case ne => omega
  case le => omega
  case ge => omega
  case any => omega

end Sys2Proof.Machine
end

section
/-! PROOFS. Control transfer (45_control_transfer.md): what an executed `jmp` and `sav` write, and that the step of any
instruction whose body writes register 15 goes on at the value written. -/

namespace Sys2Proof.Machine

/-! ### `jmp` and `sav` -/

/-- Settles O26: the body writes the register into x[15] without looking at it. -/
theorem jmpMovesTheRegisterToThePc : Obligations.JmpMovesTheRegisterToThePc := fun _ target s hset =>
  ⟨_, exec_jmp_of_set hset target, setReg_onlyRegister s RegIdx.pc (s.reg target)⟩

/-- Settles O27: the body writes x[15] into `dst`, and x[15] written to itself is the same state. -/
theorem savCopiesThePc : Obligations.SavCopiesThePc := by
  refine fun c s hset => ⟨fun dst => ?copies, ?nothing⟩
  case copies => exact ⟨_, exec_sav_of_set hset dst, setReg_onlyRegister s dst s.pc⟩
  case nothing =>
    calc exec (.sav c RegIdx.pc) s
        = .next (s.setPc s.pc) := exec_sav_of_set hset RegIdx.pc
      _ = .next s := congrArg _ (setPc_pc_self s)

/-! ### Register 15 as a destination -/

/-- Of two writes of one register the second stands. -/
theorem OnlyRegister.trans {r : RegIdx} {v w : Word} {s t u : State} (hst : OnlyRegister r v s t)
    (htu : OnlyRegister r w t u) : OnlyRegister r w s u := by
  obtain ⟨_, hregs, hflags, hmem, hcodeLen, hrun, hcause, hinfo, hout, hcfg⟩ := hst
  obtain ⟨hw, hregs', hflags', hmem', hcodeLen', hrun', hcause', hinfo', hout', hcfg'⟩ := htu
  exact ⟨hw, fun q hq => (hregs' q hq).trans (hregs q hq), hflags'.trans hflags, fun a => (hmem' a).trans (hmem a),
    hcodeLen'.trans hcodeLen, hrun'.trans hrun, hcause'.trans hcause, hinfo'.trans hinfo, hout'.trans hout,
    hcfg'.trans hcfg⟩

/-- R202: a body that writes only x[15] replaces the advanced program counter, so that the step as a whole writes only x[15]. -/
theorem step_onlyPc_of_exec {s : State} {i : Instr} {v : Word} (hi : FetchesInstr s i)
    (hexec : ∃ t, exec i (advance s) = .next t ∧ OnlyRegister RegIdx.pc v (advance s) t) :
    ∃ t, step s = .next t ∧ OnlyRegister RegIdx.pc v s t := by
  obtain ⟨t, hbody, honly⟩ := hexec
  exact ⟨t, (step_of_fetchesInstr hi).trans hbody, (advance_onlyRegister s).trans honly⟩

/-- Settles O36: the body of each form, run on the advanced state, writes only x[15]. -/
theorem writesOfRegisterFifteenTransferControl : Obligations.WritesOfRegisterFifteenTransferControl := by
  intro s c a b k hc
  have hset : conditionSet c (advance s).flags = true := hc
  have hwrite (v : Word) := setReg_onlyRegister (advance s) RegIdx.pc v
  refine ⟨pc_advance s, fun hi => step_onlyPc_of_exec hi ?add, fun hi => step_onlyPc_of_exec hi ?sub,
    fun hi => step_onlyPc_of_exec hi ?mul, fun hi hdivisor => step_onlyPc_of_exec hi ?div,
    fun hi hin => step_onlyPc_of_exec hi ?ldr, fun hi => step_onlyPc_of_exec hi ?mov,
    fun hi => step_onlyPc_of_exec hi ?sav⟩
  case add => exact ⟨_, exec_add_of_set hset RegIdx.pc a b, hwrite _⟩
  case sub => exact ⟨_, exec_sub_of_set hset RegIdx.pc a b, hwrite _⟩
  case mul => exact ⟨_, exec_mul_of_set hset RegIdx.pc a b, hwrite _⟩
  case div => exact ⟨_, exec_div_of_ne_zero hset hdivisor RegIdx.pc a, hwrite _⟩
  case ldr => exact ⟨_, exec_ldr_inBounds hset hin RegIdx.pc, hwrite _⟩
  case mov => exact movWritesTheLiteral c RegIdx.pc k (advance s) hset
  case sav =>
    have hsav := (savCopiesThePc c (advance s) hset).left RegIdx.pc
    rwa [pc_advance] at hsav

end Sys2Proof.Machine
end

section
/-! PROOFS. Output (46_output.md): the bytes an executed `prn` appends, as numbers and as the bytes a `str` stores, and what the
host sees of OUT and of the rest of the state in each run state. -/

namespace Sys2Proof

/-! ### The four bytes of a word -/

/-- Byte `k` of a word, cut from its number. -/
theorem Word.byte_eq_ofNat (v : Word) (k : Nat) : Word.byte v k = BitVec.ofNat 8 (v.toNat / 2 ^ (8 * k)) :=
  BitVec.eq_of_toNat_eq ((Word.toNat_byte v k).trans (BitVec.toNat_ofNat ..).symm)

theorem Word.bytes_eq_map_byte (v : Word) : Word.bytes v = (List.range 4).map (Word.byte v) := rfl

/-- A word written at `a` stands there as its bytes, in the order of the addresses (20_memory.md R45). -/
theorem Memory.map_read_writeWord {m : Memory} (h : m.wf = true) (a : Nat) (v : Word) :
    ((List.range 4).map fun k => (m.writeWord a v).read (a + k)) = Word.bytes v := by
  rw [Word.bytes_eq_map_byte]
  refine List.map_congr_left fun k hk => ?_
  have hlt : k < 4 := List.mem_range.mp hk
  have hinside : a ≤ a + k ∧ a + k < a + 4 := by omega
  rw [Memory.read_writeWord h, if_pos hinside, Nat.add_sub_cancel_left]

end Sys2Proof

namespace Sys2Proof.Machine

/-! ### An executed `prn` -/

theorem emit_sameButOutput (bytes : List Byte) (s : State) : SameButOutput s (emit bytes s) :=
  ⟨fun _ => rfl, rfl, fun _ => rfl, rfl, rfl, rfl, rfl, rfl⟩

/-- Settles O28: the body appends the bytes of the register to OUT and writes no other field; each byte is cut from the number. -/
theorem prnAppendsFourBytes : Obligations.PrnAppendsFourBytes := by
  intro c src s hset
  refine ⟨_, exec_prn_of_set hset src, emit_sameButOutput _ s, ?_⟩
  rw [emit_out, Word.bytes]
  simp only [Word.byte_eq_ofNat, Nat.reduceMul, Nat.pow_zero, Nat.div_one]

/-- Settles O29: either body takes the same word, and a canonical memory reads back the bytes of the word written. -/
theorem prnEmitsTheBytesStrStores : Obligations.PrnEmitsTheBytesStrStores := by
  intro c r addrReg s t u hwf hset hin hprn hstr
  cases hprn.symm.trans (exec_prn_of_set hset r)
  cases hstr.symm.trans (exec_str_inBounds hset hin r)
  rw [emit_out, Memory.map_read_writeWord hwf]

/-! ### What the host sees -/

section
variable {s : State}

theorem shownOutput_of_halted (h : s.run = .halted) : shownOutput s = s.out ++ s.cfg.lineTerminator := by
  simp only [shownOutput, h]

theorem hostView_of_halted (h : s.run = .halted) :
    hostView s = .completed s.regs s.flags s.mem (s.out ++ s.cfg.lineTerminator) := by
  simp only [hostView, h, shownOutput_of_halted h]

theorem hostView_of_faulted (h : s.run = .faulted) : hostView s = .failed s.cause s.info s.out := by
  simp only [hostView, h]

theorem hostView_of_idle (h : s.run = .idle) : hostView s = .pending s.out := by
  simp only [hostView, h]

theorem hostView_of_running (h : s.run = .running) : hostView s = .pending s.out := by
  simp only [hostView, h]

end

/-- Settles O55. -/
theorem hostSeesTheResultOnlyAtTheEnd : Obligations.HostSeesTheResultOnlyAtTheEnd := fun _ =>
  ⟨hostView_of_halted, hostView_of_faulted, fun h => h.elim hostView_of_idle hostView_of_running⟩

end Sys2Proof.Machine
end

section
/-! PROOFS. Fatal stops (60_exceptions.md): the table of causes and the step, each giving the other, with the state a stop is
entered from; what such a step keeps; and that a running CORE, and no other, steps. -/

namespace Sys2Proof.Machine

/-! ### The table of causes -/

/-- The state a fatal stop is entered from: the advance is done for a stop in a body and for an executed unassigned opcode, and
not for a stop of the fetch or at decode (60_exceptions.md R239). -/
def stopOrigin (cause : Cause) (s : State) : State :=
  match cause with
  | .divideByZero | .outOfBoundsLoad | .outOfBoundsStore => advance s
  | .outOfBoundsFetch | .fetchMisaligned => s
  | .illegalOpcode => if s.cfg.illegalOpcode = .faultAlways then s else advance s

section
variable {s t : State}

/-- A fetch that is made and whose four bytes do not all lie inside memory (60_exceptions.md R234). -/
theorem fetch_of_outOfBounds (hallowed : s.pc.toNat % 4 = 0 ∨ s.cfg.fetchMisaligned = .byteFetch)
    (hout : s.cfg.memSize < s.pc.toNat + 4) : fetch s = .error { cause := .outOfBoundsFetch, info := s.pc } := by
  rcases fetch_cases s with ⟨hmis, hp, _⟩ | ⟨_, _, hf⟩ | ⟨_, hin, _⟩
  · simp [hmis, hp] at hallowed
  · exact hf
  · exact absurd hin (Nat.not_le_of_lt hout)

/-- Each row of the table of causes is what the step does (60_exceptions.md R231). -/
theorem step_of_raisedBy {cause : Cause} {info : Word} (hrun : s.run = .running) (h : RaisedBy s cause info) :
    step s = .next (raise { cause := cause, info := info } (stopOrigin cause s)) := by
  cases cause with
  | divideByZero =>
    obtain ⟨c, d, a, b, hi, hset, hzero, rfl⟩ := h
    rw [step_of_fetchesInstr hi, exec_div_of_zero (s := advance s) hset hzero, pc_advance, BitVec.add_sub_cancel]
    rfl
  | outOfBoundsLoad =>
    obtain ⟨c, d, a, hi, hset, hout, rfl⟩ := h
    exact (step_of_fetchesInstr hi).trans (exec_ldr_outOfBounds (s := advance s) hset hout d)
  | outOfBoundsStore =>
    obtain ⟨c, v, a, hi, hset, hout, rfl⟩ := h
    exact (step_of_fetchesInstr hi).trans (exec_str_outOfBounds (s := advance s) hset hout v)
  | outOfBoundsFetch =>
    obtain ⟨hpc, hallowed, hout, rfl⟩ := h
    exact step_of_fetch_error hrun hpc (fetch_of_outOfBounds hallowed hout)
  | fetchMisaligned =>
    obtain ⟨hpc, hmis, hp, rfl⟩ := h
    exact step_of_fetch_error hrun hpc (fetch_of_misaligned hmis hp)
  | illegalOpcode =>
    obtain ⟨w, hf, hu, rfl, hp | ⟨hp, hset⟩⟩ := h
    · rw [step_of_unassigned hf hu, undefinedOpcode_of_faultAlways hp, stopOrigin, if_pos hp]
      rfl
    · rw [step_of_unassigned hf hu, undefinedOpcode_of_executed hp hset, stopOrigin, if_neg (by rw [hp]; nofun)]
      rfl

/-- A fetch that fails has one of the two conditions of a fetch (60_exceptions.md R231, R238). -/
theorem raisedBy_of_fetch_error {e : Exn} (hpc : s.pc < s.codeLen) (he : fetch s = .error e) :
    RaisedBy s e.cause e.info := by
  rcases fetch_cases s with ⟨hmis, hp, hf⟩ | ⟨hallowed, hout, hf⟩ | ⟨_, _, hf⟩ <;> cases he.symm.trans hf
  · exact ⟨hpc, hmis, hp, rfl⟩
  · exact ⟨hpc, hallowed, hout, rfl⟩

/-- An unassigned opcode stops the run only under a setting of ILLEGAL_OPCODE that says so. -/
theorem raisedBy_of_undefinedOpcode {w : Word} (hf : Fetches s w) (hu : ∀ k, s.cfg.opmap.number k ≠ opcodeField w)
    (h : undefinedOpcode w s = .next t) (hstop : t.run = .faulted) : RaisedBy s .illegalOpcode w := by
  have ⟨hrun, _, _⟩ := hf
  have hadvance : undefinedOpcode w s ≠ .next (advance s) := fun ha => by
    cases h.symm.trans ha
    cases hrun.symm.trans hstop
  refine ⟨w, hf, hu, rfl, ?_⟩
  cases hp : s.cfg.illegalOpcode with
  | faultAlways => exact .inl rfl
  | nop => exact absurd (undefinedOpcode_of_nop hp) hadvance
  | faultIfExecuted =>
    cases hc : conditionSet (Cond.ofCode (conditionField w)) s.flags with
    | true => exact .inr ⟨rfl, rfl⟩
    | false => exact absurd (undefinedOpcode_of_skipped hp hc) hadvance

/-- Of all bodies, only a `div` by 0 and an `ldr` or `str` outside memory stop the run. -/
theorem raisedBy_of_exec {i : Instr} (hi : FetchesInstr s i) (hrun : s.run = .running)
    (h : exec i (advance s) = .next t) (hstop : t.run = .faulted) : ∃ cause info, RaisedBy s cause info := by
  rcases exec_cases i (advance s) with ⟨_, hskip⟩ | ⟨hset, t', hbody, heffect⟩
  · cases h.symm.trans hskip
    cases hrun.symm.trans hstop
  · cases h.symm.trans hbody
    cases heffect with
    | divideByZero c d a b heq hzero =>
      subst heq
      exact ⟨.divideByZero, _, c, d, a, b, hi, hset, hzero, rfl⟩
    | loadStop c d a heq hout =>
      subst heq
      exact ⟨.outOfBoundsLoad, _, c, d, a, hi, hset, hout, rfl⟩
    | storeStop c v a heq hout =>
      subst heq
      exact ⟨.outOfBoundsStore, _, c, v, a, hi, hset, hout, rfl⟩
    | register | compare | store | output => cases hrun.symm.trans hstop

/-- A step that ends in a fatal stop meets a row of the table of causes: no other condition stops a run (60_exceptions.md
R237). -/
theorem raisedBy_of_step (hstep : step s = .next t) (hstop : t.run = .faulted) :
    ∃ cause info, RaisedBy s cause info := by
  have hrun := running_of_step hstep
  rcases step_running_cases hrun with
    ⟨_, hhalt⟩ | ⟨hpc, e, he, _⟩ | ⟨hpc, w, hw, hl, hundef⟩ | ⟨hpc, w, i, hw, hd, hexec⟩
  · cases hstep.symm.trans hhalt
    cases hstop
  · exact ⟨_, _, raisedBy_of_fetch_error hpc he⟩
  · have hu := OpMap.lookup_eq_none_iff.mp hl
    exact ⟨_, _, raisedBy_of_undefinedOpcode ⟨hrun, hpc, hw⟩ hu (hundef.symm.trans hstep) hstop⟩
  · exact raisedBy_of_exec ⟨w, ⟨hrun, hpc, hw⟩, hd⟩ hrun (hexec.symm.trans hstep) hstop

/-- A step that ends in a fatal stop is `raise` of a row of the table of causes. -/
theorem stop_of_step (hstep : step s = .next t) (hstop : t.run = .faulted) :
    ∃ cause info, RaisedBy s cause info ∧ t = raise { cause := cause, info := info } (stopOrigin cause s) := by
  obtain ⟨cause, info, h⟩ := raisedBy_of_step hstep hstop
  cases hstep.symm.trans (step_of_raisedBy (running_of_step hstep) h)
  exact ⟨cause, info, h, rfl⟩

end

/-- Settles O38: a stop is `raise` of a row of the table, so its CAUSE and INFO are those of that row. -/
theorem stepStopsExactlyAsTheCauseTableSays : Obligations.StepStopsExactlyAsTheCauseTableSays := by
  refine fun s cause info hrun => ⟨fun ⟨t, hstep, hstop, hcause, hinfo⟩ => ?row, fun h => ?stop⟩
  case row =>
    obtain ⟨cause', info', h, rfl⟩ := stop_of_step hstep hstop
    cases hcause
    cases hinfo
    exact h
  case stop => exact ⟨_, step_of_raisedBy hrun h, rfl, rfl, rfl⟩

/-- Settles O34: it is the row of the table of causes for the fetch, which stops before the advance. -/
theorem fetchOutOfBoundsStops : Obligations.FetchOutOfBoundsStops := by
  intro s hrun hpc hallowed hout
  have hrow : RaisedBy s .outOfBoundsFetch s.pc := ⟨hpc, hallowed, hout, rfl⟩
  exact ⟨_, step_of_raisedBy hrun hrow, raise_stoppedWith _ s⟩

/-! ### What a fatal stop keeps -/

/-- A fatal stop is entered from `s` itself or from `s` after the advance. -/
theorem stopOrigin_cases (cause : Cause) (s : State) : stopOrigin cause s = s ∨ stopOrigin cause s = advance s := by
  cases cause with
  | divideByZero | outOfBoundsLoad | outOfBoundsStore => exact .inr rfl
  | outOfBoundsFetch | fetchMisaligned => exact .inl rfl
  | illegalOpcode => exact ite_eq_or_eq ..

/-- The state a stop is entered from is `s` but for x[15] (60_exceptions.md R239). -/
theorem stopOrigin_onlyRegister (cause : Cause) (s : State) :
    OnlyRegister RegIdx.pc (stopOrigin cause s).pc s (stopOrigin cause s) := by
  rcases stopOrigin_cases cause s with h | h <;> rw [h]
  · exact ⟨rfl, fun _ _ => rfl, rfl, fun _ => rfl, rfl, rfl, rfl, rfl, rfl, rfl⟩
  · exact pc_advance s ▸ advance_onlyRegister s

/-- Settles O39: the step raises from the state before or after the advance, and neither the advance nor `raise` writes
anything else. -/
theorem fatalStopsArePrecise : Obligations.FatalStopsArePrecise := by
  intro s t hstep hstop
  obtain ⟨cause, info, _, rfl⟩ := stop_of_step hstep hstop
  obtain ⟨_, hregs, hflags, hmem, hcode, _, _, _, hout, hcfg⟩ := stopOrigin_onlyRegister cause s
  refine ⟨cause, info, rfl, rfl, hregs, ?pc, hflags, hmem, hcode, hout, hcfg⟩
  rw [pc_raise]
  cases cause with
  | divideByZero | outOfBoundsLoad | outOfBoundsStore => exact pc_advance s
  | outOfBoundsFetch | fetchMisaligned => rfl
  | illegalOpcode => exact (apply_ite State.pc ..).trans (by rw [pc_advance]; rfl)

/-! ### Who steps -/

section
variable {s : State}

theorem step_of_idle (h : s.run = .idle) : step s = .fault .idle := by
  simp only [step, h]

theorem step_of_halted (h : s.run = .halted) : step s = .fault .halted := by
  simp only [step, h]

theorem step_of_faulted (h : s.run = .faulted) : step s = .fault .faulted := by
  simp only [step, h]

/-- No step of a running CORE is refused and none faults: a fatal condition is a next state (40_execution_cycle.md R129). -/
theorem exists_next_of_running (hrun : s.run = .running) : ∃ t, step s = .next t := by
  obtain ⟨_, _, _, hchange⟩ := step_change hrun
  exact ⟨_, hchange s.flags s.out s.codeLen (GateAlike.refl s) Iff.rfl⟩

end

/-- Settles O37. -/
theorem exactlyARunningCoreSteps : Obligations.ExactlyARunningCoreSteps := fun _ =>
  ⟨⟨exists_next_of_running, fun ⟨_, hstep⟩ => running_of_step hstep⟩, step_of_idle, step_of_halted, step_of_faulted⟩

end Sys2Proof.Machine
end

section
/-! PROOFS. The host's moves (70_reset_and_hazards.md R270 to R272): what LOAD copies and when LOAD and RUN are refused, that every
move keeps the invariant, and that the model's `withFetchWord` places the word that is fetched next. -/

namespace Sys2Proof

/-! ### The bytes of a program -/

/-- Byte `k` of the word at `a` is the byte at `a + k` (20_memory.md R44). -/
theorem Memory.toNat_read_eq_readWord (m : Memory) (a : Nat) {k : Nat} (hk : k < 4) :
    (m.read (a + k)).toNat = (m.readWord a).toNat / 2 ^ (8 * k) % 2 ^ 8 := by
  have h0 := (m.read a).isLt
  have h1 := (m.read (a + 1)).isLt
  have h2 := (m.read (a + 2)).isLt
  have h3 := (m.read (a + 3)).isLt
  rw [Memory.readWord, Word.toNat_ofBytes]
  interval_cases k <;> simp only [Nat.reduceMul, Nat.reducePow, Nat.add_zero] <;> omega

/-- Writing words changes no byte outside them. -/
theorem Memory.read_writeWords_of_outside {m : Memory} (h : m.wf = true) {a x : Nat} (vs : List Word)
    (hx : x < a ∨ a + 4 * vs.length ≤ x) : (m.writeWords a vs).read x = m.read x := by
  induction vs generalizing m a with
  | nil => rfl
  | cons v vs ih =>
    rw [List.length_cons] at hx
    calc ((m.writeWord a v).writeWords (a + 4) vs).read x
        = (m.writeWord a v).read x := ih (Memory.writeWord_wf h a v) (by omega)
      _ = m.read x := Memory.read_writeWord_of_outside h v (by omega)

end Sys2Proof

namespace Sys2Proof.Machine

/-! ### LOAD and RUN -/

section
variable {s : State} {words : List Word}

theorem hostLoad_of_not_idle (h : s.run ≠ .idle) : hostLoad words s = .refused .loadNotIdle :=
  if_neg h

theorem hostLoad_of_tooLong (hidle : s.run = .idle) (hlong : s.cfg.memSize < 4 * words.length) :
    hostLoad words s = .refused .loadTooLong := by
  rw [hostLoad, if_pos hidle, if_pos hlong]

theorem hostLoad_of_fits (hidle : s.run = .idle) (hfits : 4 * words.length ≤ s.cfg.memSize) :
    hostLoad words s =
      .next { s with mem := s.mem.writeWords 0 words, codeLen := BitVec.ofNat 32 (4 * words.length) } := by
  rw [hostLoad, if_pos hidle, if_neg (Nat.not_lt_of_le hfits)]

theorem hostRun_of_idle (h : s.run = .idle) : hostRun s = .next { s with run := .running } :=
  if_pos h

theorem hostRun_of_not_idle (h : s.run ≠ .idle) : hostRun s = .refused .runNotIdle :=
  if_neg h

theorem idle_of_hostRun {t : State} (h : hostRun s = .next t) : s.run = .idle :=
  Decidable.byContradiction fun hne => nomatch h.symm.trans (hostRun_of_not_idle hne)

end

/-- Settles O52. -/
theorem runStartsOnlyFromIdle : Obligations.RunStartsOnlyFromIdle := fun _ =>
  ⟨hostRun_of_idle, hostRun_of_not_idle⟩

/-- Settles O51: the words copied read back word by word, hence byte by byte, and nothing is written beyond them. -/
theorem loadCopiesTheWordsOrRefuses : Obligations.LoadCopiesTheWordsOrRefuses := by
  refine fun s words hwf => ⟨hostLoad_of_not_idle, hostLoad_of_tooLong, fun hidle hfits =>
    ⟨_, hostLoad_of_fits hidle hfits, fun i hi k hk => ?bytes, fun x hx => ?others, rfl, fun _ => rfl, rfl, rfl, rfl, rfl,
      rfl, rfl⟩⟩
  case bytes =>
    have hword : (s.mem.writeWords 0 words).readWord (4 * i) = words[i] := by
      rw [← Nat.zero_add (4 * i)]
      exact Memory.readWord_writeWords hwf 0 words hi
    rw [← hword]
    exact Memory.toNat_read_eq_readWord _ (4 * i) hk
  case others => exact Memory.read_writeWords_of_outside hwf words (.inr (by omega))

/-! ### The invariant -/

section
variable {s t : State}

/-- Valid parameters name a reset memory in canonical form inside the array (10_state.md R32); the rest is fixed. -/
theorem resetOf_inv {cfg : Config} (hvalid : cfg.Valid) (hflags : flagsReachable cfg.resetFlags = true) :
    (State.resetOf cfg).Inv := by
  have ⟨_, _, _, hwf, hwithin⟩ := hvalid
  exact ⟨hvalid, hwf, hwithin, rfl, Nat.zero_le _, hflags, rfl, iff_of_false nofun nofun, iff_of_false nofun nofun⟩

/-- An accepted program fits memory, and its length is a multiple of 4. -/
theorem hostLoad_inv {words : List Word} (hinv : s.Inv) (h : hostLoad words s = .next t) : t.Inv := by
  obtain ⟨hvalid, hwf, hwithin, _, _, hflags, hout, hcause, hinfo⟩ := hinv
  have hlen := codeLen_of_hostLoad hvalid h
  obtain ⟨hfits, rfl⟩ := hostLoad_next h
  exact ⟨hvalid, Memory.writeWords_wf hwf 0 words, Memory.writeWords_within hwithin (by omega), by omega,
    hlen.trans_le hfits, hflags, hout, hcause, hinfo⟩

/-- RUN starts from IDLE, where CAUSE and INFO are absent. -/
theorem hostRun_inv (hinv : s.Inv) (h : hostRun s = .next t) : t.Inv := by
  obtain ⟨hvalid, hwf, hwithin, hmod, hlen, hflags, hout, hcause, hinfo⟩ := hinv
  have hidle := idle_of_hostRun h
  have hcause' : ¬ s.cause.isSome = true := by simp [hcause, hidle]
  have hinfo' : ¬ s.info.isSome = true := by simp [hinfo, hidle]
  obtain rfl := hostRun_next h
  exact ⟨hvalid, hwf, hwithin, hmod, hlen, hflags, hout, iff_of_false hcause' nofun, iff_of_false hinfo' nofun⟩

end

/-- Settles O48: one lemma for each move. -/
theorem hostMovesKeepTheStateInvariant : Obligations.HostMovesKeepTheStateInvariant := by
  intro move s t hinv hflags h
  cases move with
  | reset =>
    cases h
    obtain ⟨hvalid, _⟩ := hinv
    exact resetOf_inv hvalid hflags
  | load words => exact hostLoad_inv hinv h
  | run => exact hostRun_inv hinv h

/-! ### The model's placed word -/

/-- The word is placed where an aligned fetch stays inside memory (10_state.md R31). -/
theorem fetchPlace_fits {s : State} (h : 4 ≤ s.cfg.memSize) :
    (fetchPlace s).toNat % 4 = 0 ∧ (fetchPlace s).toNat + 4 ≤ s.cfg.memSize := by
  unfold fetchPlace
  split_ifs with hplace
  · obtain ⟨halign, hin⟩ := Bool.and_eq_true_iff.mp hplace
    exact ⟨pcAligned_iff.mp halign, inBounds_iff.mp hin⟩
  · exact ⟨rfl, h⟩

/-- The code region of a placed word reaches past it. -/
theorem fetchPlace_lt_codeLen_placeWord {s : State} (hvalid : s.cfg.Valid) (w : Word) :
    (fetchPlace s).toNat < (placeWord w s).codeLen.toNat := by
  obtain ⟨hmin, hsize, _⟩ := hvalid
  obtain ⟨_, hin⟩ := fetchPlace_fits hmin
  simp only [placeWord]
  split_ifs with hcode
  · exact hcode
  · rw [BitVec.toNat_add_of_lt (by simp only [BitVec.toNat_ofNat]; omega)]
    exact Nat.lt_add_of_pos_right (by decide)

/-- The next step fetches the placed word: placing it moves x[15] to a multiple of 4 inside code and memory where the word
stands. -/
theorem fetches_placeWord {s : State} (hvalid : s.cfg.Valid) (hwf : s.mem.wf = true) (w : Word) :
    Fetches (placeWord w s) w := by
  have hcode := fetchPlace_lt_codeLen_placeWord hvalid w
  obtain ⟨hmin, _⟩ := hvalid
  obtain ⟨halign, hin⟩ := fetchPlace_fits hmin
  have hword : (placeWord w s).mem.readWord (fetchPlace s).toNat = w := Memory.readWord_writeWord hwf _ w
  have hfetch : Fetches (placeWord w s) ((placeWord w s).mem.readWord (fetchPlace s).toNat) :=
    fetches_setPc (s := { placeWord w s with regs := s.regs }) rfl hcode halign hin
  rwa [hword] at hfetch

/-- Settles O54. -/
theorem withFetchWordIsFetchedNext : Obligations.WithFetchWordIsFetchedNext := fun _ _ _ hvalid hwf =>
  fetches_placeWord hvalid hwf _

end Sys2Proof.Machine
end
